-- ==== Sys2Proof/Word.lean ====
section
/-! DEFINITION. The word types of WGC25519 and the ten-place vector its field elements are made of. -/

namespace Sys2Proof

/-- A 32-bit word: a command word, a control register, one host transaction's data (R51, R80). -/
abbrev Word := BitVec 32

/-- One byte of a byte register (R9). -/
abbrev Byte := BitVec 8

/-- A limb as it is stored and as the host sees it: a 64-bit two's-complement pattern (R21, R57). -/
abbrev Limb := BitVec 64

/-- A 32-byte value. Byte `j` is bits `8j+7 .. 8j`, so that `le256` (R9) is `toNat`. -/
abbrev Bytes32 := BitVec 256

/-- A byte offset into the 4096-byte host window (R50: offsets are 12 bits). -/
abbrev Offset := BitVec 12

/-- The number of a field-element register `F0 .. F15` (R20). -/
abbrev FReg := Fin 16

/-- The number of a byte register `B0 .. B3` (R24). -/
abbrev BReg := Fin 4

/-- Ten like things, one per limb position (R7 `NLIMB`, R10). -/
structure Ten (α : Type) where
  l0 : α
  l1 : α
  l2 : α
  l3 : α
  l4 : α
  l5 : α
  l6 : α
  l7 : α
  l8 : α
  l9 : α
  deriving DecidableEq, Repr

/-- A field element: a vector of ten int64 limbs (R10). -/
abbrev Fe := Ten Limb

/-- The entry at position `i`. -/
def Ten.get {α : Type} (t : Ten α) : Fin 10 → α
  | 0 => t.l0
  | 1 => t.l1
  | 2 => t.l2
  | 3 => t.l3
  | 4 => t.l4
  | 5 => t.l5
  | 6 => t.l6
  | 7 => t.l7
  | 8 => t.l8
  | 9 => t.l9

/-- The vector with the entry at position `i` replaced. -/
def Ten.set {α : Type} (t : Ten α) (i : Fin 10) (v : α) : Ten α :=
  match i with
  | 0 => { t with l0 := v }
  | 1 => { t with l1 := v }
  | 2 => { t with l2 := v }
  | 3 => { t with l3 := v }
  | 4 => { t with l4 := v }
  | 5 => { t with l5 := v }
  | 6 => { t with l6 := v }
  | 7 => { t with l7 := v }
  | 8 => { t with l8 := v }
  | 9 => { t with l9 := v }

/-- The same entry at all ten positions. -/
def Ten.replicate {α : Type} (v : α) : Ten α := ⟨v, v, v, v, v, v, v, v, v, v⟩

/-- The vector whose entry at position `i` is `g i`. -/
def Ten.ofFn {α : Type} (g : Fin 10 → α) : Ten α :=
  ⟨g 0, g 1, g 2, g 3, g 4, g 5, g 6, g 7, g 8, g 9⟩

/-- Apply a function position by position. -/
def Ten.map {α β : Type} (g : α → β) (t : Ten α) : Ten β :=
  ⟨g t.l0, g t.l1, g t.l2, g t.l3, g t.l4, g t.l5, g t.l6, g t.l7, g t.l8, g t.l9⟩

/-- Combine two vectors position by position. -/
def Ten.zipWith {α β γ : Type} (g : α → β → γ) (t : Ten α) (u : Ten β) : Ten γ :=
  ⟨g t.l0 u.l0, g t.l1 u.l1, g t.l2 u.l2, g t.l3 u.l3, g t.l4 u.l4,
   g t.l5 u.l5, g t.l6 u.l6, g t.l7 u.l7, g t.l8 u.l8, g t.l9 u.l9⟩

/-- Whether a test holds at every position. -/
def Ten.all {α : Type} (q : α → Bool) (t : Ten α) : Bool :=
  q t.l0 && q t.l1 && q t.l2 && q t.l3 && q t.l4 && q t.l5 && q t.l6 && q t.l7 && q t.l8 && q t.l9

/-- The sum of ten integers. -/
def Ten.sum (t : Ten Int) : Int :=
  t.l0 + t.l1 + t.l2 + t.l3 + t.l4 + t.l5 + t.l6 + t.l7 + t.l8 + t.l9

end Sys2Proof
end

