-- ==== Sys2Proof/Config.lean ====
section
/-! DEFINITION. The implementation parameters of WGC25519 (rule R7), each at the value the spec gives it.
There is no free value in this machine: the spec leaves no architectural value open (93_implementation_defined.md;
its U6, time, is the `schedule` field of State, log entry 1). -/

namespace Sys2Proof.Config

/-- `P`: the field prime `2^255 − 19` (R3, R7). -/
def p : Nat := 2 ^ 255 - 19

/-- `E[i]`: limb `i` has weight `2^E[i]`, `E[i] = ceil(25.5·i)` (R7). -/
def E : Ten Nat := ⟨0, 26, 51, 77, 102, 128, 153, 179, 204, 230⟩

/-- `W[i]`: the radix width of limb `i`, `W[i] = E[i+1] − E[i]` with `E[10] = 255` (R7). -/
def W : Ten Nat := ⟨26, 25, 26, 25, 26, 25, 26, 25, 26, 25⟩

/-- `M_MUL`: operand magnitude bound of MUL, SQR and INV (R7, R113). -/
def mMul : Nat := 2 ^ 27

/-- `M_MULC`: operand magnitude bound of MULC (R7, R113). -/
def mMulc : Nat := 2 ^ 40

/-- `M_SMUL`: operand magnitude bound of SMUL's base register (R7, R174). -/
def mSmul : Nat := 2 ^ 26

/-- `A24`: the doubling constant `(486662 − 2)/4`, wired into SMUL (R7, R172). -/
def a24 : Nat := 121665

/-- `ID_VALUE`: the identification word (R2, R7, R33). -/
def idValue : Word := 0x25519001#32

end Sys2Proof.Config
end

