-- ==== Sys2Proof/Syntax.lean ====
section
/-! DEFINITION. The thirteen commands of WGC25519 (rules R86, R91): one constructor per row of the opcode table. -/

namespace Sys2Proof

/-- A command, destination first as in the assembler forms of R91. The immediate of SETC and MULC is an unsigned
integer used as it stands (R82); its range is checked in WellFormed. -/
inductive Instr where
  | nop
  | setc (d : FReg) (imm : Nat)
  | cpy (d a : FReg)
  | add (d a b : FReg)
  | sub (d a b : FReg)
  | mul (d a b : FReg)
  | sqr (d a : FReg)
  | mulc (d a : FReg) (imm : Nat)
  | inv (d a : FReg)
  | smul (d a : FReg) (b : BReg)
  | unpack (d : FReg) (a : BReg)
  | pack (d : BReg) (a : FReg)
  | clamp (d a : BReg)
  deriving DecidableEq, Repr

end Sys2Proof
end

