-- ==== Sys2Proof/WellFormed.lean ====
section
/-! DEFINITION. Which terms of `Instr` are commands: those a command word can carry (rules R81, R82).
Register numbers are in range by their types; the 20-bit immediate is what is left to check. -/

namespace Sys2Proof

/-- `0 ≤ imm ≤ 1048575` (R82, parameter `IMMW` of R7). -/
def immOk (imm : Nat) : Bool := imm < 2 ^ 20

/-- A command whose operands fit their fields. -/
def Instr.wf : Instr → Bool
  | .nop => true
  | .setc _ imm => immOk imm
  | .cpy _ _ => true
  | .add _ _ _ => true
  | .sub _ _ _ => true
  | .mul _ _ _ => true
  | .sqr _ _ => true
  | .mulc _ _ imm => immOk imm
  | .inv _ _ => true
  | .smul _ _ _ => true
  | .unpack _ _ => true
  | .pack _ _ => true
  | .clamp _ _ => true

end Sys2Proof
end

