-- ==== Sys2Proof/Decode.lean ====
section
/-! DEFINITION. The command encoding (rules R80 to R90): the decoder, total on all `2^32` words, and the encoder.
Decoding depends on the command word alone (R83). -/

namespace Sys2Proof

/-- Why a word is illegal (R88). -/
inductive Illegal where
  /-- Case (a): the opcode is `0xD`, `0xE` or `0xF`. -/
  | reservedOpcode
  /-- Case (b): the opcode is defined and a must-be-zero bit is 1. -/
  | mustBeZero
  deriving DecidableEq, Repr

/-- Field `op`, bits 31:28 (R81). -/
def opField (w : Word) : BitVec 4 := w.extractLsb' 28 4

/-- Field `d`, bits 27:24 (R81). -/
def dField (w : Word) : BitVec 4 := w.extractLsb' 24 4

/-- Field `a`, bits 23:20 (R81). -/
def aField (w : Word) : BitVec 4 := w.extractLsb' 20 4

/-- Field `b`, bits 19:16 (R81). -/
def bField (w : Word) : BitVec 4 := w.extractLsb' 16 4

/-- Bits 15:0, which every format-R command requires to be zero (R81). -/
def lowField (w : Word) : BitVec 16 := w.extractLsb' 0 16

/-- Field `imm`, bits 19:0, an unsigned integer (R82). -/
def immField (w : Word) : Nat := (w.extractLsb' 0 20).toNat

/-- A field that names an F register uses all four bits (R81). -/
def fReg (x : BitVec 4) : FReg := ⟨x.toNat, x.isLt⟩

/-- A field that names a B register uses its low two bits (R81). -/
def bReg (x : BitVec 4) : BReg := ⟨(x.extractLsb' 0 2).toNat, (x.extractLsb' 0 2).isLt⟩

/-- The high two bits of a field that names a B register must be 0 (R81, R85). -/
def namesB (x : BitVec 4) : Bool := x.extractLsb' 2 2 == 0#2

/-- The command, provided the must-be-zero bits of its row are zero. -/
def provided (zeros : Bool) (i : Instr) : Except Illegal Instr :=
  if zeros then .ok i else .error .mustBeZero

/-- The decoder: the opcode map of R86, illegal words by R88. -/
def decode (w : Word) : Except Illegal Instr :=
  match (opField w).toNat with
  | 0x0 => provided (dField w == 0 && aField w == 0 && bField w == 0 && lowField w == 0) .nop
  | 0x1 => provided (aField w == 0) (.setc (fReg (dField w)) (immField w))
  | 0x2 => provided (bField w == 0 && lowField w == 0) (.cpy (fReg (dField w)) (fReg (aField w)))
  | 0x3 => provided (lowField w == 0) (.add (fReg (dField w)) (fReg (aField w)) (fReg (bField w)))
  | 0x4 => provided (lowField w == 0) (.sub (fReg (dField w)) (fReg (aField w)) (fReg (bField w)))
  | 0x5 => provided (lowField w == 0) (.mul (fReg (dField w)) (fReg (aField w)) (fReg (bField w)))
  | 0x6 => provided (bField w == 0 && lowField w == 0) (.sqr (fReg (dField w)) (fReg (aField w)))
  | 0x7 => .ok (.mulc (fReg (dField w)) (fReg (aField w)) (immField w))
  | 0x8 => provided (bField w == 0 && lowField w == 0) (.inv (fReg (dField w)) (fReg (aField w)))
  | 0x9 => provided (namesB (bField w) && lowField w == 0)
             (.smul (fReg (dField w)) (fReg (aField w)) (bReg (bField w)))
  | 0xA => provided (namesB (aField w) && bField w == 0 && lowField w == 0)
             (.unpack (fReg (dField w)) (bReg (aField w)))
  | 0xB => provided (namesB (dField w) && bField w == 0 && lowField w == 0)
             (.pack (bReg (dField w)) (fReg (aField w)))
  | 0xC => provided (namesB (dField w) && namesB (aField w) && bField w == 0 && lowField w == 0)
             (.clamp (bReg (dField w)) (bReg (aField w)))
  | _ => .error .reservedOpcode

/-- A format-R word: `op`, `d`, `a`, `b` in bits 31:28, 27:24, 23:20, 19:16, and bits 15:0 zero (R81). -/
def wordR (op d a b : Nat) : Word :=
  BitVec.ofNat 32 (op * 2 ^ 28 + d * 2 ^ 24 + a * 2 ^ 20 + b * 2 ^ 16)

/-- A format-I word: `op`, `d`, `a` in bits 31:28, 27:24, 23:20 and `imm` in bits 19:0 (R81). -/
def wordI (op d a imm : Nat) : Word :=
  BitVec.ofNat 32 (op * 2 ^ 28 + d * 2 ^ 24 + a * 2 ^ 20 + imm)

/-- The command word of a well-formed command (R86, R87). -/
def encode : Instr → Word
  | .nop => wordR 0x0 0 0 0
  | .setc d imm => wordI 0x1 d 0 imm
  | .cpy d a => wordR 0x2 d a 0
  | .add d a b => wordR 0x3 d a b
  | .sub d a b => wordR 0x4 d a b
  | .mul d a b => wordR 0x5 d a b
  | .sqr d a => wordR 0x6 d a 0
  | .mulc d a imm => wordI 0x7 d a imm
  | .inv d a => wordR 0x8 d a 0
  | .smul d a b => wordR 0x9 d a b
  | .unpack d a => wordR 0xA d a 0
  | .pack d a => wordR 0xB d a 0
  | .clamp d a => wordR 0xC d a 0

/-- A row of the opcode table: a word is that command exactly when `w & mask = value` (R85). -/
structure Row where
  value : Word
  mask : Word
  deriving DecidableEq, Repr

/-- The row of R86 a command belongs to. -/
def Instr.row : Instr → Row
  | .nop => ⟨0x00000000#32, 0xFFFFFFFF#32⟩
  | .setc _ _ => ⟨0x10000000#32, 0xF0F00000#32⟩
  | .cpy _ _ => ⟨0x20000000#32, 0xF00FFFFF#32⟩
  | .add _ _ _ => ⟨0x30000000#32, 0xF000FFFF#32⟩
  | .sub _ _ _ => ⟨0x40000000#32, 0xF000FFFF#32⟩
  | .mul _ _ _ => ⟨0x50000000#32, 0xF000FFFF#32⟩
  | .sqr _ _ => ⟨0x60000000#32, 0xF00FFFFF#32⟩
  | .mulc _ _ _ => ⟨0x70000000#32, 0xF0000000#32⟩
  | .inv _ _ => ⟨0x80000000#32, 0xF00FFFFF#32⟩
  | .smul _ _ _ => ⟨0x90000000#32, 0xF00CFFFF#32⟩
  | .unpack _ _ => ⟨0xA0000000#32, 0xF0CFFFFF#32⟩
  | .pack _ _ => ⟨0xB0000000#32, 0xFC0FFFFF#32⟩
  | .clamp _ _ => ⟨0xC0000000#32, 0xFCCFFFFF#32⟩

/-- The instruction the decoder reads from a table word of `nbits` bits (every bit above them 0). A command is one
32-bit word and has no byte order of its own (R54, R80), so the table's numbering of bits is R81's. -/
def decodeTableWord (nbits w : Nat) : Option Instr :=
  if w % 2 ^ nbits < 2 ^ 32 then (decode (BitVec.ofNat 32 (w % 2 ^ nbits))).toOption else none

end Sys2Proof
end

