-- ==== Sys2Proof/Machine/State.lean ====
section
/-! DEFINITION. The state of WGC25519 (10_state.md), of the host port that drives it (rules R14, R15, R51), and the
state after reset (R38). Plain data: no field is a function. -/

namespace Sys2Proof.Machine

/-- Why a command cannot be given a result (R216). Each is raised by the command's complete step, which takes the
fault entry of R219: a next state, never the end of a run. -/
inductive FaultCause where
  /-- Code 1: the word matches no command (R220). -/
  | illegalCmd
  /-- Code 2: a source limb is out of bound (R221). -/
  | operandBound
  /-- Code 3: a result limb of ADD or SUB does not fit int64 (R222). -/
  | limbOverflow
  /-- Code 4: the value to PACK is outside `[−p, 2p)` (R223). -/
  | packRange
  deriving DecidableEq, Repr

/-- The fields of `STATUS` (R30); its reserved bits hold nothing and read 0. -/
structure Status where
  /-- Bit 0: a command has been accepted and not completed. -/
  busy : Bool
  /-- Bit 1: a command completed without fault since `DONE` was last cleared. -/
  done : Bool
  /-- Bit 2: a command faulted; sticky until reset. -/
  fault : Bool
  /-- Bits 7:4: the cause code of the fault, 0 while there is none (R216). -/
  cause : BitVec 4
  deriving DecidableEq, Repr

/-- The stored fields of `CTRL` (R31); `SRST` is an action and reserved bits read 0, so neither is stored. -/
structure Ctrl where
  /-- Bit 0: `DONE` drives the interrupt output. -/
  ieDone : Bool
  /-- Bit 1: `FAULT` drives the interrupt output. -/
  ieFault : Bool
  deriving DecidableEq, Repr

/-- The width of a host access. Only 32-bit accesses are carried out (R51, R59). -/
inductive Width where
  | w8
  | w16
  | w32
  | w64
  deriving DecidableEq, Repr

/-- A host transaction on the register window (R51 to R53). The data of a write that is not 32 bits wide is never
looked at (R59), so a write carries one word whatever its width. -/
inductive Txn where
  | rd (width : Width) (off : Offset)
  | wr (width : Width) (off : Offset) (v : Word)
  deriving DecidableEq, Repr

/-- What the host is told when a transaction completes (R51). -/
inductive Response where
  /-- `OK` to a write. -/
  | ok
  /-- `OK` to a read, with the value. -/
  | okValue (v : Word)
  /-- `ERR`: nothing changed and there is no value. -/
  | err
  deriving DecidableEq, Repr

/-- Who takes the next step: the two agents of R14, or the reset input of R250. -/
inductive Agent where
  | host
  | unit
  | resetLine
  deriving DecidableEq, Repr

/-- The machine: the unit's registers (R38 lists them), and the host's side of the port. -/
structure State where
  /-- `F0 .. F15`, ten int64 limbs each (R20). -/
  f : Vector Fe 16
  /-- `B0 .. B3`, 32 bytes each (R24). -/
  b : Vector Bytes32 4
  /-- `CMD`: the last accepted command word (R29). -/
  cmd : Word
  /-- `STATUS` (R30). -/
  status : Status
  /-- `CTRL` (R31). -/
  ctrl : Ctrl
  /-- `FINFO`: the command word that faulted (R32). -/
  finfo : Word
  /-- The host's transactions still to be performed, next one first (R15, R62). -/
  host : List Txn
  /-- The responses the host has received, latest first (R51). -/
  responses : List Response
  /-- MODEL'S OWN: who moves next, where the spec leaves the order open (R258; log entry 1). -/
  schedule : List Agent
  deriving DecidableEq, Repr

/-- Outcomes that stop the machine. There are none, so nobody raises one: the spec gives every command word and every
host transaction an effect, and its faults are states the unit reaches and stays in (R215, R219), hence next states.
Safe: no behaviour is cut off. -/
inductive Fault where
  deriving DecidableEq, Repr

/-- Instructions without a meaning. -/
inductive Refusal where
  /-- An instruction that the model gives no meaning yet. Raised by no arm of `exec`: all thirteen commands have one.
  Safe: it would stop the run. -/
  | notModelled (mnemonic : String)
  deriving DecidableEq, Repr

/-- The machine right after reset: every value is R38's; the host has nothing to do yet (log entries 1 and 2). -/
def State.reset : State where
  f := Vector.replicate 16 (Ten.replicate 0)
  b := Vector.replicate 4 0
  cmd := 0
  status := { busy := false, done := false, fault := false, cause := 0 }
  ctrl := { ieDone := false, ieFault := false }
  finfo := 0
  host := []
  responses := []
  schedule := []

end Sys2Proof.Machine
end

