-- ==== Sys2Proof/Machine/Flags.lean ====
section
/-! DEFINITION. The status bits (R30), the control bits (R31) and the interrupt output (R224). There are no arithmetic
flags: no command writes or reads one (R28). -/

namespace Sys2Proof.Machine

/-- The cause code of R216. -/
def FaultCause.code : FaultCause → BitVec 4
  | .illegalCmd => 1
  | .operandBound => 2
  | .limbOverflow => 3
  | .packRange => 4

/-- A bit as a number. -/
def bitNat (b : Bool) : Nat := if b then 1 else 0

/-- The word a read of `STATUS` returns (R30): `BUSY`, `DONE`, `FAULT` in bits 0 to 2, `CAUSE` in bits 7:4. -/
def Status.word (st : Status) : Word :=
  BitVec.ofNat 32 (bitNat st.busy + bitNat st.done * 2 + bitNat st.fault * 4 + st.cause.toNat * 16)

/-- The word a read of `CTRL` returns (R31): `SRST` and the reserved bits read 0. -/
def Ctrl.word (c : Ctrl) : Word :=
  BitVec.ofNat 32 (bitNat c.ieDone + bitNat c.ieFault * 2)

/-- `STATUS` after a command is accepted (R29). -/
def Status.accepted (st : Status) : Status := { st with busy := true, done := false }

/-- `STATUS` after a command completes without fault (R217 step 4). -/
def Status.completed (st : Status) : Status := { st with busy := false, done := true }

/-- `STATUS` after a command faults; `DONE` stays as it is (R217, `fault(X)`). -/
def Status.faulted (c : FaultCause) (st : Status) : Status :=
  { st with busy := false, fault := true, cause := c.code }

/-- `STATUS` after a host write of `v`: bit 1 clears `DONE`, every other written bit is ignored (R30). -/
def Status.written (v : Word) (st : Status) : Status :=
  { st with done := st.done && !v.getLsbD 1 }

/-- `CTRL` after a host write of `v` with bit 31 clear (R31). -/
def Ctrl.written (v : Word) : Ctrl := { ieDone := v.getLsbD 0, ieFault := v.getLsbD 1 }

/-- The interrupt output (R31, R224): a function of `STATUS` and `CTRL`, no state of its own (R37). -/
def State.irq (s : State) : Bool :=
  (s.status.done && s.ctrl.ieDone) || (s.status.fault && s.ctrl.ieFault)

end Sys2Proof.Machine
end

