-- ==== Sys2Proof/Machine/Operands.lean ====
section
/-! DEFINITION. Operands: limb vectors and 32-byte values as numbers, their bounds, and the pieces the host moves
(rules R8 to R10, R21, R113, R54 to R57). -/

namespace Sys2Proof.Machine

/-- What a pure function of R13 answers: a value, or the named fault it fails with. -/
abbrev Result (α : Type) := Except FaultCause α

/-- The limbs of a field element as integers, in two's complement (R21). -/
def ints (f : Fe) : Ten Int := f.map BitVec.toInt

/-- Ten integers stored as limbs. Exact on int64; every caller's values are in int64 (R111, R112, R120). -/
def narrow (r : Ten Int) : Fe := r.map (BitVec.ofInt 64)

/-- Membership in int64, `[−2^63, 2^63 − 1]` (R8). -/
def fitsInt64 (x : Int) : Bool := -9223372036854775808 ≤ x && x ≤ 9223372036854775807

/-- `bounded(f, M)`: every limb has magnitude at most `M`, both ends included (R113). -/
def bounded (f : Fe) (m : Nat) : Bool := f.all (fun l => l.toInt.natAbs ≤ m)

/-- `Σ r[i]·2^E[i]` for a vector of ten integers (R10). -/
def valInts (r : Ten Int) : Int := (Ten.zipWith (fun l e => l * ((2 ^ e : Nat) : Int)) r Config.E).sum

/-- `val(f)`: the integer a limb vector represents (R10). -/
def val (f : Fe) : Int := valInts (ints f)

/-- `fe_const(k)`: the vector `(k, 0, …, 0)` (R10). -/
def feConst (k : Nat) : Fe := ⟨BitVec.ofNat 64 k, 0, 0, 0, 0, 0, 0, 0, 0, 0⟩

/-- `le256(b)`: a 32-byte value as a little-endian integer (R9). -/
def le256 (b : Bytes32) : Nat := b.toNat

/-- `bytes32(n)`, the inverse of `le256` on `0 ≤ n < 2^256` (R9). -/
def bytes32 (n : Nat) : Bytes32 := BitVec.ofNat 256 n

/-- `b[j]`, byte `j` of a 32-byte value (R9). -/
def byteOf (b : Bytes32) (j : Nat) : Byte := b.extractLsb' (8 * j) 8

/-- Bit `t` of a 32-byte value: bit `t mod 8` of byte `t div 8` (R9, R167). -/
def bitOf (b : Bytes32) (t : Nat) : Bool := (byteOf b (t / 8)).getLsbD (t % 8)

/-- `x` with the bits from `lo` on replaced by those of `v`, and every other bit kept. -/
def replaceBits {n m : Nat} (x : BitVec n) (lo : Nat) (v : BitVec m) : BitVec n :=
  (x &&& ~~~((BitVec.allOnes m).setWidth n <<< lo)) ||| (v.setWidth n <<< lo)

/-- The 32-byte value with byte `j` replaced. -/
def setByte (b : Bytes32) (j : Nat) (v : Byte) : Bytes32 := replaceBits b (8 * j) v

/-- Word `w` of a byte register: bytes `4w .. 4w+3`, the lowest-numbered in bits 7:0 (R54, R56). -/
def wordOf (b : Bytes32) (w : Fin 8) : Word := b.extractLsb' (32 * w.val) 32

/-- The byte register with word `w` replaced; the other 28 bytes are kept (R56). -/
def setWord (b : Bytes32) (w : Fin 8) (v : Word) : Bytes32 := replaceBits b (32 * w.val) v

/-- The bit at which a limb's half starts: bits 31:0 are the low word, bits 63:32 the high word (R57). -/
def halfBit (high : Bool) : Nat := if high then 32 else 0

/-- One half of a limb (R57). -/
def halfOf (l : Limb) (high : Bool) : Word := l.extractLsb' (halfBit high) 32

/-- The limb with one half replaced; the other half is kept (R57). -/
def setHalf (l : Limb) (high : Bool) (v : Word) : Limb := replaceBits l (halfBit high) v

end Sys2Proof.Machine
end

