-- ==== Sys2Proof/Machine/Ops.lean ====
section
/-! DEFINITION. The named operations of the machine: register access (R11, R22, R23), acceptance of a command (R29),
the end of a command with or without a fault (R217, R219), reset (R250, R251), and whose turn it is (R14, R258). -/

namespace Sys2Proof.Machine

/-- `F[r]` (R11); no F register is hardwired or aliased (R22). -/
def State.readF (s : State) (r : FReg) : Fe := s.f[r]

/-- `F[r] <- v`, all ten limbs in one update (R11, R23). -/
def State.writeF (s : State) (r : FReg) (v : Fe) : State := { s with f := s.f.set r v }

/-- `B[r]` (R11); no byte register is hardwired or aliased (R25). -/
def State.readB (s : State) (r : BReg) : Bytes32 := s.b[r]

/-- `B[r] <- v`, all 32 bytes in one update (R11, R23). -/
def State.writeB (s : State) (r : BReg) (v : Bytes32) : State := { s with b := s.b.set r v }

/-- Acceptance of command word `w`: `CMD <- w`, `BUSY <- 1`, `DONE <- 0` (R29). -/
def State.accept (s : State) (w : Word) : State := { s with cmd := w, status := s.status.accepted }

/-- The end of a command that did not fault: `BUSY <- 0`, `DONE <- 1` (R217 step 4). -/
def State.complete (s : State) : State := { s with status := s.status.completed }

/-- TAKING A FAULT (R217 `fault(X)`, R219): `BUSY <- 0`, `FAULT <- 1`, `CAUSE <- code(X)`, `FINFO <- w` with `w` the
word in `CMD`. No F or B register changes; there is no vector, no saved pc and no mode. -/
def State.takeFault (s : State) (c : FaultCause) : State :=
  { s with status := s.status.faulted c, finfo := s.cmd }

/-- THE RETURN FROM A FAULT is reset and nothing else (R227). Hard and soft reset are the same (R250, R251): every
register of the unit takes its value of R38, a command in progress is abandoned. The host's side of the port is not
part of the unit and keeps what it holds (log entry 2). -/
def State.resetUnit (s : State) : State :=
  { State.reset with host := s.host, responses := s.responses, schedule := s.schedule }

/-- The end of a command whose pure function answers for `F[d]`: write and complete, or fault with nothing written
(R217 steps 3 and 4). -/
def State.commitF (s : State) (d : FReg) : Result Fe → State
  | .ok v => (s.writeF d v).complete
  | .error c => s.takeFault c

/-- The end of a command whose pure function answers for `B[d]` (R217 steps 3 and 4). -/
def State.commitB (s : State) (d : BReg) : Result Bytes32 → State
  | .ok v => (s.writeB d v).complete
  | .error c => s.takeFault c

/-- Whose turn it is. The schedule says so while it lasts. After it the unit completes a command in progress before
the host goes on: the complete step eventually happens (R258; log entry 1). -/
def State.turn (s : State) : Agent :=
  match s.schedule with
  | a :: _ => a
  | [] => if s.status.busy then .unit else .host

/-- The state once the turn has been given out. -/
def State.taken (s : State) : State := { s with schedule := s.schedule.tail }

end Sys2Proof.Machine
end

