-- ==== Sys2Proof/Machine/Codec.lean ====
section
/-! DEFINITION. The codec and the clamp (43_codec.md): `fe_unpack`, `fe_pack`, `clamp32`, and the commands UNPACK,
PACK, CLAMP. -/

namespace Sys2Proof.Machine

/-- Bits `lo .. lo + w − 1` of `n`, as a limb (R191). -/
def slice (n lo w : Nat) : Limb := BitVec.ofNat 64 ((n >>> lo) % 2 ^ w)

/-- `fe_unpack(b)`: limb `i` is bits `E[i] .. E[i+1] − 1`; limb 9 is bits 230 .. 255, so it keeps bit 255 (R191). -/
def feUnpack (b : Bytes32) : Fe :=
  let l := Ten.zipWith (slice (le256 b)) Config.E Config.W
  { l with l9 := slice (le256 b) Config.E.l9 26 }

/-- `fe_pack(f)`: the canonical representative, by one correction by `p`; `PACK_RANGE` outside `[−p, 2p)` (R197). -/
def fePack (f : Fe) : Result Bytes32 :=
  let v := val f
  let p : Int := Config.p
  if v < -p || 2 * p ≤ v then .error .packRange
  else if p ≤ v then .ok (bytes32 (v - p).toNat)
  else if v < 0 then .ok (bytes32 (v + p).toNat)
  else .ok (bytes32 v.toNat)

/-- `clamp32(b)`: clear the low three bits of byte 0; in byte 31 clear bit 7 and set bit 6 (R205). -/
def clamp32 (b : Bytes32) : Bytes32 :=
  setByte (setByte b 0 (byteOf b 0 &&& 0xF8#8)) 31 ((byteOf b 31 &&& 0x7F#8) ||| 0x40#8)

/-- UNPACK Fd, Ba (R193). -/
def execUnpack (d : FReg) (a : BReg) (s : State) : Host.Outcome State Fault Refusal :=
  .next (s.commitF d (.ok (feUnpack (s.readB a))))

/-- PACK Bd, Fa; `F[a]` is not changed (R199). -/
def execPack (d : BReg) (a : FReg) (s : State) : Host.Outcome State Fault Refusal :=
  .next (s.commitB d (fePack (s.readF a)))

/-- CLAMP Bd, Ba (R206). -/
def execClamp (d a : BReg) (s : State) : Host.Outcome State Fault Refusal :=
  .next (s.commitB d (.ok (clamp32 (s.readB a))))

end Sys2Proof.Machine
end

