-- ==== Sys2Proof/Machine/Field.lean ====
section
/-! DEFINITION. Field-element arithmetic (40_field_arith.md): the pure functions `fe_add`, `fe_sub`, `fe_carry`,
`fe_mul`, `fe_sqr`, `fe_mulc`, and the commands NOP, SETC, CPY, ADD, SUB, MUL, SQR, MULC. All arithmetic is on
integers; a limb is read signed and a result is stored once it is known to fit (R8, R131). -/

namespace Sys2Proof.Machine

/-- Ten integers as a result when all of them are in int64, else `LIMB_OVERFLOW` (R111, R112). -/
def ifFits (s : Ten Int) : Result Fe :=
  if s.all fitsInt64 then .ok (narrow s) else .error .limbOverflow

/-- `fe_add(a, b)`: limb-wise, no carry (R111). -/
def feAdd (a b : Fe) : Result Fe := ifFits (Ten.zipWith (fun x y => x + y) (ints a) (ints b))

/-- `fe_sub(a, b)`: limb-wise, no borrow (R112). -/
def feSub (a b : Fe) : Result Fe := ifFits (Ten.zipWith (fun x y => x - y) (ints a) (ints b))

/-- The ten raw limb sums of a product, as R115 writes them out (R114); below `267·2^54` in bound (R120). -/
def rawSums (a b : Ten Int) : Ten Int :=
  let ⟨a0, a1, a2, a3, a4, a5, a6, a7, a8, a9⟩ := a
  let ⟨b0, b1, b2, b3, b4, b5, b6, b7, b8, b9⟩ := b
  ⟨a0*b0 + 19*(a2*b8 + a4*b6 + a6*b4 + a8*b2) + 38*(a1*b9 + a3*b7 + a5*b5 + a7*b3 + a9*b1),
   a0*b1 + a1*b0 + 19*(a2*b9 + a3*b8 + a4*b7 + a5*b6 + a6*b5 + a7*b4 + a8*b3 + a9*b2),
   a0*b2 + a2*b0 + 2*(a1*b1) + 19*(a4*b8 + a6*b6 + a8*b4) + 38*(a3*b9 + a5*b7 + a7*b5 + a9*b3),
   a0*b3 + a1*b2 + a2*b1 + a3*b0 + 19*(a4*b9 + a5*b8 + a6*b7 + a7*b6 + a8*b5 + a9*b4),
   a0*b4 + a2*b2 + a4*b0 + 2*(a1*b3 + a3*b1) + 19*(a6*b8 + a8*b6) + 38*(a5*b9 + a7*b7 + a9*b5),
   a0*b5 + a1*b4 + a2*b3 + a3*b2 + a4*b1 + a5*b0 + 19*(a6*b9 + a7*b8 + a8*b7 + a9*b6),
   a0*b6 + a2*b4 + a4*b2 + a6*b0 + 2*(a1*b5 + a3*b3 + a5*b1) + 19*(a8*b8) + 38*(a7*b9 + a9*b7),
   a0*b7 + a1*b6 + a2*b5 + a3*b4 + a4*b3 + a5*b2 + a6*b1 + a7*b0 + 19*(a8*b9 + a9*b8),
   a0*b8 + a2*b6 + a4*b4 + a6*b2 + a8*b0 + 2*(a1*b7 + a3*b5 + a5*b3 + a7*b1) + 38*(a9*b9),
   a0*b9 + a1*b8 + a2*b7 + a3*b6 + a4*b5 + a5*b4 + a6*b3 + a7*b2 + a8*b1 + a9*b0⟩

/-- `t & (2^w − 1)`: the non-negative remainder, also of a negative `t` (R8). -/
def loPart (w : Nat) (t : Int) : Int := t % ((2 ^ w : Nat) : Int)

/-- `t >> w`: division rounding toward minus infinity (R8, R131). -/
def hiPart (w : Nat) (t : Int) : Int := t / ((2 ^ w : Nat) : Int)

/-- `t[i] = r[i] + c` for `i = 0..9`: each limb with the carry that enters it, from limb 0 to limb 9 (R116); below
`2^63` in bound (R120). -/
def carryIn (r : Ten Int) : Ten Int :=
  let w := Config.W
  let t0 := r.l0
  let t1 := r.l1 + hiPart w.l0 t0
  let t2 := r.l2 + hiPart w.l1 t1
  let t3 := r.l3 + hiPart w.l2 t2
  let t4 := r.l4 + hiPart w.l3 t3
  let t5 := r.l5 + hiPart w.l4 t4
  let t6 := r.l6 + hiPart w.l5 t5
  let t7 := r.l7 + hiPart w.l6 t6
  let t8 := r.l8 + hiPart w.l7 t7
  let t9 := r.l9 + hiPart w.l8 t8
  ⟨t0, t1, t2, t3, t4, t5, t6, t7, t8, t9⟩

/-- The carry out of limb 9 (R116). -/
def carryOut (r : Ten Int) : Int := hiPart Config.W.l9 (carryIn r).l9

/-- `u = l[0] + 19·c`: limb 0 with the carry out of limb 9 folded in (R116). -/
def foldIn (r : Ten Int) : Int := loPart Config.W.l0 (carryIn r).l0 + 19 * carryOut r

/-- `fe_carry(r)`: one carry pass, the carry out of limb 9 folded into limb 0 by 19, and the closing step that carries
limb 0 once into limb 1 (R116). -/
def feCarry (r : Ten Int) : Ten Int :=
  let l := Ten.zipWith loPart Config.W (carryIn r)
  { l with l0 := loPart 26 (foldIn r), l1 := l.l1 + hiPart 26 (foldIn r) }

/-- `fe_mul(a, b)` (R117). The bound `M_MUL` is the one for which no intermediate leaves int64 (R120(a)). -/
def feMul (a b : Fe) : Result Fe :=
  if bounded a Config.mMul && bounded b Config.mMul then .ok (narrow (feCarry (rawSums (ints a) (ints b))))
  else .error .operandBound

/-- `fe_sqr(a) = fe_mul(a, a)`, limb for limb (R118). -/
def feSqr (a : Fe) : Result Fe := feMul a a

/-- `fe_mulc(a, k)` (R119). The bound `M_MULC` is the one for which no intermediate leaves int64 (R120(b)). -/
def feMulc (a : Fe) (k : Nat) : Result Fe :=
  if bounded a Config.mMulc then .ok (narrow (feCarry ((ints a).map (fun x => x * (k : Int)))))
  else .error .operandBound

/-- NOP: no register is written (R121). -/
def execNop (s : State) : Host.Outcome State Fault Refusal := .next s.complete

/-- SETC Fd, imm: `F[d] <- fe_const(imm)` (R122). -/
def execSetc (d : FReg) (imm : Nat) (s : State) : Host.Outcome State Fault Refusal :=
  .next (s.commitF d (.ok (feConst imm)))

/-- CPY Fd, Fa: `F[d] <- F[a]`, whatever the limbs (R123). -/
def execCpy (d a : FReg) (s : State) : Host.Outcome State Fault Refusal :=
  .next (s.commitF d (.ok (s.readF a)))

/-- ADD Fd, Fa, Fb (R124). -/
def execAdd (d a b : FReg) (s : State) : Host.Outcome State Fault Refusal :=
  .next (s.commitF d (feAdd (s.readF a) (s.readF b)))

/-- SUB Fd, Fa, Fb: the minuend is `F[a]` (R125). -/
def execSub (d a b : FReg) (s : State) : Host.Outcome State Fault Refusal :=
  .next (s.commitF d (feSub (s.readF a) (s.readF b)))

/-- MUL Fd, Fa, Fb (R126). -/
def execMul (d a b : FReg) (s : State) : Host.Outcome State Fault Refusal :=
  .next (s.commitF d (feMul (s.readF a) (s.readF b)))

/-- SQR Fd, Fa (R127). -/
def execSqr (d a : FReg) (s : State) : Host.Outcome State Fault Refusal :=
  .next (s.commitF d (feSqr (s.readF a)))

/-- MULC Fd, Fa, imm (R128). -/
def execMulc (d a : FReg) (imm : Nat) (s : State) : Host.Outcome State Fault Refusal :=
  .next (s.commitF d (feMulc (s.readF a) imm))

end Sys2Proof.Machine
end

