-- ==== Sys2Proof/Machine/Inverse.lean ====
section
/-! DEFINITION. The modular inverse (41_inverse.md): the addition chain of R152 and the command INV. -/

namespace Sys2Proof.Machine

/-- `sqn(v, n)`: `v` squared `n` times (R151). -/
def sqn (v : Fe) : Nat → Result Fe
  | 0 => .ok v
  | n + 1 => do feSqr (← sqn v n)

/-- One block of the chain: `n` squarings of `v`, then a multiplication by `m` (R152, R153). -/
def sqnMul (v : Fe) (n : Nat) (m : Fe) : Result Fe := do feMul (← sqn v n) m

/-- The chain of R152; a comment gives the exponent of `x` that a value carries. -/
def invChain (x : Fe) : Result Fe := do
  let z2 ← feSqr x
  let z4 ← feSqr z2
  let z8 ← feSqr z4
  let z9 ← feMul z8 x
  let z11 ← feMul z9 z2
  let z22 ← feSqr z11
  let a5 ← feMul z22 z9               -- 2^5 − 1
  let a10 ← sqnMul a5 5 a5            -- 2^10 − 1
  let a20 ← sqnMul a10 10 a10         -- 2^20 − 1
  let a40 ← sqnMul a20 20 a20         -- 2^40 − 1
  let a50 ← sqnMul a40 10 a10         -- 2^50 − 1
  let a100 ← sqnMul a50 50 a50        -- 2^100 − 1
  let a200 ← sqnMul a100 100 a100     -- 2^200 − 1
  let a250 ← sqnMul a200 50 a50       -- 2^250 − 1
  sqnMul a250 5 z11                   -- 2^255 − 21

/-- `fe_inv(x)`: the entry check, then the chain (R152). -/
def feInv (x : Fe) : Result Fe :=
  if bounded x Config.mMul then invChain x else .error .operandBound

/-- INV Fd, Fa (R154). -/
def execInv (d a : FReg) (s : State) : Host.Outcome State Fault Refusal :=
  .next (s.commitF d (feInv (s.readF a)))

end Sys2Proof.Machine
end

