-- ==== Sys2Proof/Machine/Ladder.lean ====
section
/-! DEFINITION. The scalar multiplier (42_ladder.md): the Montgomery ladder and the command SMUL. The slots and the
temporaries are values inside the command, not state (R36). -/

namespace Sys2Proof.Machine

/-- A slot `(x[s], z[s])`: the projective u-coordinate `x / z` (R166). -/
structure Slot where
  x : Fe
  z : Fe
  deriving DecidableEq, Repr

/-- The two slots of the ladder (R166). -/
structure Slots where
  s0 : Slot
  s1 : Slot
  deriving DecidableEq, Repr

/-- The slot a bit names (R168). -/
def slotAt (l : Slots) (bit : Bool) : Slot := if bit then l.s1 else l.s0

/-- Differential addition of the addend pair and the doubled pair with difference `u` (R170). -/
def diffAdd (addend doubled : Slot) (u : Fe) : Result Slot := do
  let t1 ← feAdd addend.x addend.z
  let t2 ← feSub addend.x addend.z
  let t3 ← feAdd doubled.x doubled.z
  let t4 ← feSub doubled.x doubled.z
  let p ← feMul t2 t3
  let q ← feMul t1 t4
  let s ← feAdd p q
  let d ← feSub p q
  let ax ← feSqr s
  let dd ← feSqr d
  let az ← feMul dd u
  return ⟨ax, az⟩

/-- Differential doubling of the doubled pair (R171). -/
def diffDouble (doubled : Slot) : Result Slot := do
  let t3 ← feAdd doubled.x doubled.z
  let t4 ← feSub doubled.x doubled.z
  let aa ← feSqr t3
  let bb ← feSqr t4
  let bx ← feMul aa bb
  let ed ← feSub aa bb
  let ec ← feMulc ed Config.a24
  let sum ← feAdd aa ec
  let bz ← feMul sum ed
  return ⟨bx, bz⟩

/-- `ladder_step(x, z, u, bit)`: the doubled pair is slot `bit`, the addend pair slot `1 − bit`; all four new values
come from the four old ones (R168, R173). -/
def ladderStep (l : Slots) (u : Fe) (bit : Bool) : Result Slots := do
  let sum ← diffAdd (slotAt l !bit) (slotAt l bit) u
  let dbl ← diffDouble (slotAt l bit)
  return if bit then ⟨sum, dbl⟩ else ⟨dbl, sum⟩

/-- The initial slots: `(1, 0)` and `(u, 1)` (R166). -/
def slots0 (u : Fe) : Slots := ⟨⟨feConst 1, feConst 0⟩, ⟨u, feConst 1⟩⟩

/-- The steps for bits `t − 1` down to 0 of the scalar (R167, R174). -/
def ladder (k : Bytes32) (u : Fe) : Nat → Slots → Result Slots
  | 0, l => .ok l
  | t + 1, l => do ladder k u t (← ladderStep l u (bitOf k t))

/-- The final affine coordinate `x0 · inverse(z0)` (R174). -/
def affine (l : Slots) : Result Fe := do feMul l.s0.x (← feInv l.s0.z)

/-- `fe_smul(k, u)`: the entry check, 256 steps, the affine coordinate (R174). All 256 bits of `k` are used as they
are (R167, R178). -/
def feSmul (k : Bytes32) (u : Fe) : Result Fe :=
  if bounded u Config.mSmul then do affine (← ladder k u 256 (slots0 u)) else .error .operandBound

/-- SMUL Fd, Fa, Bb (R175). -/
def execSmul (d a : FReg) (b : BReg) (s : State) : Host.Outcome State Fault Refusal :=
  .next (s.commitF d (feSmul (s.readB b) (s.readF a)))

end Sys2Proof.Machine
end

