-- ==== Sys2Proof/Machine/Dispatch.lean ====
section
/-! DEFINITION. One arm per command: the complete step of a command that decoded (R217 steps 2 to 4). -/

namespace Sys2Proof.Machine

def exec (i : Instr) (s : State) : Host.Outcome State Fault Refusal :=
  match i with
  | .nop => Sys2Proof.Machine.execNop s
  | .setc d imm => Sys2Proof.Machine.execSetc d imm s
  | .cpy d a => Sys2Proof.Machine.execCpy d a s
  | .add d a b => Sys2Proof.Machine.execAdd d a b s
  | .sub d a b => Sys2Proof.Machine.execSub d a b s
  | .mul d a b => Sys2Proof.Machine.execMul d a b s
  | .sqr d a => Sys2Proof.Machine.execSqr d a s
  | .mulc d a imm => Sys2Proof.Machine.execMulc d a imm s
  | .inv d a => Sys2Proof.Machine.execInv d a s
  | .smul d a b => Sys2Proof.Machine.execSmul d a b s
  | .unpack d a => Sys2Proof.Machine.execUnpack d a s
  | .pack d a => Sys2Proof.Machine.execPack d a s
  | .clamp d a => Sys2Proof.Machine.execClamp d a s

end Sys2Proof.Machine
end

