-- ==== Sys2Proof/Machine/Complete.lean ====
section
/-! DEFINITION. The unit's one step, complete: decoding, then the command or the fault (R83, R217, R220). -/

namespace Sys2Proof.Machine

/-- The unit's complete step (R217), enabled exactly when `BUSY = 1`; otherwise the unit is idle and waits (R250). -/
def completeStep (s : State) : Host.Outcome State Fault Refusal :=
  if s.status.busy then
    match decode s.cmd with
    | .ok i => exec i s
    | .error _ => .next (s.takeFault .illegalCmd)
  else .next s

end Sys2Proof.Machine
end

