-- ==== Sys2Proof/Machine/Window.lean ====
section
/-! DEFINITION. The host register window (20_memory.md): which register word an offset names, what a transaction
does, when it is held, and the host's step. -/

namespace Sys2Proof.Machine

/-- A 32-bit word of the window that is implemented (R50). -/
inductive Loc where
  | cmd
  | status
  | ctrl
  | finfo
  | id
  /-- Word `w` of `B[r]` (R56). -/
  | bWord (r : BReg) (w : Fin 8)
  /-- One half of limb `i` of `F[r]` (R57). -/
  | fHalf (r : FReg) (i : Fin 10) (high : Bool)
  deriving DecidableEq, Repr

/-- The offset of a word of the window (R50, R56, R57). -/
def Loc.offset : Loc → Offset
  | .cmd => 0x000
  | .status => 0x004
  | .ctrl => 0x008
  | .finfo => 0x00C
  | .id => 0x010
  | .bWord r w => BitVec.ofNat 12 (0x100 + 0x20 * r + 4 * w)
  | .fHalf r i high => BitVec.ofNat 12 (0x800 + 0x80 * r + 8 * i + (if high then 4 else 0))

/-- The five control registers (R50). -/
def locateControl (n : Nat) : Option Loc :=
  match n with
  | 0x000 => some .cmd
  | 0x004 => some .status
  | 0x008 => some .ctrl
  | 0x00C => some .finfo
  | 0x010 => some .id
  | _ => none

/-- The word at distance `n` from the start of the B window; all 128 bytes are implemented (R56). -/
def locateB (n : Nat) : Loc := .bWord (Fin.ofNat 4 (n / 0x20)) (Fin.ofNat 8 (n % 0x20 / 4))

/-- The word at distance `n` from the start of the F window; slot offsets `0x50 .. 0x7F` are reserved (R57, R58). -/
def locateF (n : Nat) : Option Loc :=
  if n % 0x80 < 0x50 then
    some (.fHalf (Fin.ofNat 16 (n / 0x80)) (Fin.ofNat 10 (n % 0x80 / 8)) (n % 8 == 4))
  else none

/-- The word an offset names: none for an offset that is not a multiple of 4 (R59) or is reserved (R58). -/
def locate (off : Offset) : Option Loc :=
  let n := off.toNat
  if n % 4 ≠ 0 then none
  else if n < 0x100 then locateControl n
  else if n < 0x180 then some (locateB (n - 0x100))
  else if n < 0x800 then none
  else locateF (n - 0x800)

/-- The word a transaction of a given width names: only 32-bit accesses name one (R51, R59). -/
def target (width : Width) (off : Offset) : Option Loc :=
  match width with
  | .w32 => locate off
  | .w8 => none
  | .w16 => none
  | .w64 => none

/-- The value a read returns (R29 to R33, R52, R56, R57). Reads have no side effects. -/
def State.readLoc (s : State) : Loc → Word
  | .cmd => s.cmd
  | .status => s.status.word
  | .ctrl => s.ctrl.word
  | .finfo => s.finfo
  | .id => Config.idValue
  | .bWord r w => wordOf (s.readB r) w
  | .fHalf r i high => halfOf ((s.readF r).get i) high

/-- A write of `CMD`: ignored in the faulted state, otherwise acceptance of the command (R29). -/
def State.writeCmd (s : State) (w : Word) : State := if s.status.fault then s else s.accept w

/-- A write of `STATUS` (R30). -/
def State.writeStatus (s : State) (v : Word) : State := { s with status := s.status.written v }

/-- A write of `CTRL`: with bit 31 set it is the soft reset and nothing else, otherwise the enables (R31, R251). -/
def State.writeCtrl (s : State) (v : Word) : State :=
  if v.getLsbD 31 then s.resetUnit else { s with ctrl := Ctrl.written v }

/-- The effect of a write (R53, R56, R57); `FINFO` and `ID` ignore it. -/
def State.writeLoc (s : State) (v : Word) : Loc → State
  | .cmd => s.writeCmd v
  | .status => s.writeStatus v
  | .ctrl => s.writeCtrl v
  | .finfo => s
  | .id => s
  | .bWord r w => s.writeB r (setWord (s.readB r) w v)
  | .fHalf r i high => s.writeF r ((s.readF r).set i (setHalf ((s.readF r).get i) high v))

/-- Whether a word of the window is in the B window or the F window. -/
def Loc.isData : Loc → Bool
  | .cmd => false
  | .status => false
  | .ctrl => false
  | .finfo => false
  | .id => false
  | .bWord _ _ => true
  | .fHalf _ _ _ => true

/-- Whether a transaction is held now (R60): while `BUSY = 1`, any access to the B or F window and a write of `CMD`.
A write of `CMD` in the faulted state is ignored rather than held (R29; log entry 5). -/
def State.holds (s : State) : Txn → Bool
  | .rd width off => s.status.busy && (target width off).any Loc.isData
  | .wr width off _ =>
    s.status.busy && (target width off).any fun l => l.isData || (l == .cmd && !s.status.fault)

/-- The effect of a transaction that is not held, and its response (R51 to R53). An `ERR` changes nothing (R58, R59). -/
def State.perform (s : State) : Txn → State × Response
  | .rd width off =>
    match target width off with
    | some l => (s, .okValue (s.readLoc l))
    | none => (s, .err)
  | .wr width off v =>
    match target width off with
    | some l => (s.writeLoc v l, .ok)
    | none => (s, .err)

/-- One transaction taken off the host's list and its response delivered (R62). -/
def State.doTxn (s : State) (t : Txn) (rest : List Txn) : State :=
  let r := ({ s with host := rest } : State).perform t
  { r.1 with responses := r.2 :: r.1.responses }

/-- The host's step: its next transaction in program order, unless that one is held (R60, R62) or there is none
(log entry 3). -/
def State.hostStep (s : State) : State :=
  match s.host with
  | [] => s
  | t :: rest => if s.holds t then s else s.doTxn t rest

end Sys2Proof.Machine
end

