-- ==== Sys2Proof/Machine/Step.lean ====
section
/-! DEFINITION. One step of the machine: the agent whose turn it is moves (R14). -/

namespace Sys2Proof.Machine

/-- One step: the unit completes, the host performs a transaction, or the reset input acts (R14, R250, R258). -/
def step (s : State) : Host.Outcome State Fault Refusal :=
  match s.turn with
  | .unit => completeStep s.taken
  | .host => .next s.taken.hostStep
  | .resetLine => .next s.taken.resetUnit

/-- The state in which the word `w` has just been accepted and it is the unit's turn: the machine fetches nothing
(R27), it decodes the word in `CMD` (R83). `nbits` is 32 in every row. -/
def State.withFetchWord (s : State) (nbits w : Nat) : State :=
  { s.accept (BitVec.ofNat 32 (w % 2 ^ nbits)) with schedule := .unit :: s.schedule }

end Sys2Proof.Machine
end

