-- ==== Sys2Proof/Safety.lean ====
section
/-! DEFINITION. The terms claims about the machine use: the forms of limb vectors (R17), the status invariant, when a
run has ended or gone wrong (R15, R219), and what a command may have changed. -/

namespace Sys2Proof.Machine

/-- Carried form (R17): what one carry pass leaves, limb 1 with slack below `2^14`. -/
abbrev CarriedForm (f : Fe) : Prop :=
  (0 ≤ f.l0.toInt ∧ f.l0.toInt < 2 ^ 26) ∧ (-2 ^ 14 < f.l1.toInt ∧ f.l1.toInt < 2 ^ 25 + 2 ^ 14) ∧
  (0 ≤ f.l2.toInt ∧ f.l2.toInt < 2 ^ 26) ∧ (0 ≤ f.l3.toInt ∧ f.l3.toInt < 2 ^ 25) ∧
  (0 ≤ f.l4.toInt ∧ f.l4.toInt < 2 ^ 26) ∧ (0 ≤ f.l5.toInt ∧ f.l5.toInt < 2 ^ 25) ∧
  (0 ≤ f.l6.toInt ∧ f.l6.toInt < 2 ^ 26) ∧ (0 ≤ f.l7.toInt ∧ f.l7.toInt < 2 ^ 25) ∧
  (0 ≤ f.l8.toInt ∧ f.l8.toInt < 2 ^ 26) ∧ (0 ≤ f.l9.toInt ∧ f.l9.toInt < 2 ^ 25)

/-- Strict form (R17): every limb in its radix range, except that limb 9 may use 26 bits. -/
abbrev StrictForm (f : Fe) : Prop :=
  (0 ≤ f.l0.toInt ∧ f.l0.toInt < 2 ^ 26) ∧ (0 ≤ f.l1.toInt ∧ f.l1.toInt < 2 ^ 25) ∧
  (0 ≤ f.l2.toInt ∧ f.l2.toInt < 2 ^ 26) ∧ (0 ≤ f.l3.toInt ∧ f.l3.toInt < 2 ^ 25) ∧
  (0 ≤ f.l4.toInt ∧ f.l4.toInt < 2 ^ 26) ∧ (0 ≤ f.l5.toInt ∧ f.l5.toInt < 2 ^ 25) ∧
  (0 ≤ f.l6.toInt ∧ f.l6.toInt < 2 ^ 26) ∧ (0 ≤ f.l7.toInt ∧ f.l7.toInt < 2 ^ 25) ∧
  (0 ≤ f.l8.toInt ∧ f.l8.toInt < 2 ^ 26) ∧ (0 ≤ f.l9.toInt ∧ f.l9.toInt < 2 ^ 26)

/-- The status invariant (R30, R32, R216, R219, R224): a command in progress excludes `DONE` and `FAULT`; `DONE` and
`FAULT` exclude each other; without a fault `CAUSE` and `FINFO` are 0; with one, `CAUSE` is a code of R216 and `FINFO`
is the word still in `CMD`. -/
abbrev State.Inv (s : State) : Prop :=
  (s.status.busy = true → s.status.done = false ∧ s.status.fault = false) ∧
  ¬(s.status.done = true ∧ s.status.fault = true) ∧
  (s.status.fault = false → s.status.cause = 0 ∧ s.finfo = 0) ∧
  (s.status.fault = true → 1 ≤ s.status.cause.toNat ∧ s.status.cause.toNat ≤ 4 ∧ s.finfo = s.cmd)

/-- A run has ended: the host has performed its last transaction and no command is in progress (R15). -/
abbrev State.Ended (s : State) : Prop := s.host = [] ∧ s.status.busy = false

/-- A run has gone wrong: a command faulted (R15, R219). -/
abbrev State.Wrong (s : State) : Prop := s.status.fault = true

/-- The host's side of the port is as it was. -/
structure SamePort (s t : State) : Prop where
  host : t.host = s.host
  responses : t.responses = s.responses
  schedule : t.schedule = s.schedule

/-- From `s` to `t` a command completed without fault (R217 step 4) and changed no register outside the two register
files: `BUSY` is 0, `DONE` is 1, and nothing else in the control registers moved. -/
structure Completed (s t : State) : Prop where
  busy : t.status.busy = false
  done : t.status.done = true
  fault : t.status.fault = s.status.fault
  cause : t.status.cause = s.status.cause
  cmd : t.cmd = s.cmd
  ctrl : t.ctrl = s.ctrl
  finfo : t.finfo = s.finfo
  port : SamePort s t

/-- A command completed and of the register files wrote at most `F[d]` (R22, R23). -/
structure WroteF (d : FReg) (s t : State) : Prop where
  completed : Completed s t
  otherF : ∀ r, r ≠ d → t.readF r = s.readF r
  allB : ∀ r, t.readB r = s.readB r

/-- A command completed and of the register files wrote at most `B[d]` (R22, R25). -/
structure WroteB (d : BReg) (s t : State) : Prop where
  completed : Completed s t
  allF : ∀ r, t.readF r = s.readF r
  otherB : ∀ r, r ≠ d → t.readB r = s.readB r

/-- A command faulted with cause `c` (R217 `fault(X)`, R219): `BUSY` 0, `FAULT` 1, the cause code, the command word in
`FINFO`; no F or B register, not `CMD`, not `DONE`, not `CTRL` changed. -/
structure Faulted (c : FaultCause) (s t : State) : Prop where
  busy : t.status.busy = false
  done : t.status.done = s.status.done
  fault : t.status.fault = true
  cause : t.status.cause = c.code
  finfo : t.finfo = s.cmd
  cmd : t.cmd = s.cmd
  ctrl : t.ctrl = s.ctrl
  allF : ∀ r, t.readF r = s.readF r
  allB : ∀ r, t.readB r = s.readB r
  port : SamePort s t

/-- The unit's registers (not the host's side of the port) agree: what a reset sets (R38). -/
structure SameUnit (s t : State) : Prop where
  f : ∀ r, t.readF r = s.readF r
  b : ∀ r, t.readB r = s.readB r
  cmd : t.cmd = s.cmd
  status : t.status = s.status
  ctrl : t.ctrl = s.ctrl
  finfo : t.finfo = s.finfo

end Sys2Proof.Machine
end

