-- ==== Sys2Proof/Certificates/Slice0/Obligations.lean ====
section
/-! DEFINITION. The statements for the provers. Each docstring says which rule of the spec it formalises. The helpers
before them are the spec's formulas written independently of the model's functions. -/

namespace Sys2Proof.Machine

/-- `f(i, j)` of R114: 2 when both positions are odd, else 1. -/
def oddFactor (i j : Fin 10) : Int := if i.val % 2 = 1 ∧ j.val % 2 = 1 then 2 else 1

/-- The term of `r[k]` of R114 at positions `i`, `j`, with its factors. -/
def rawTerm (a b : Ten Int) (k i j : Fin 10) : Int :=
  if i.val + j.val = k.val then oddFactor i j * a.get i * b.get j
  else if i.val + j.val = k.val + 10 then 19 * (oddFactor i j * a.get i * b.get j)
  else 0

/-- `r[k]` of R114, as the general sum over positions. -/
def rawSpec (a b : Ten Int) (k : Fin 10) : Int := ∑ i : Fin 10, ∑ j : Fin 10, rawTerm a b k i j

/-- The radix width of limb `i`: 26 bits for even `i`, 25 for odd (R7, R20). -/
def radixWidth (i : Nat) : Nat := if i % 2 = 0 then 26 else 25

/-- The carry `c` that enters limb `i` in the loop of R116; `carryBefore r 10` is the carry out of limb 9. -/
def carryBefore (r : Fin 10 → Int) : Nat → Int
  | 0 => 0
  | i + 1 => (r (Fin.ofNat 10 i) + carryBefore r i) / 2 ^ radixWidth i

/-- `l[k]` at the end of R116: the loop, the wraparound by 19, and the closing step from limb 0 into limb 1. -/
def carrySpec (r : Fin 10 → Int) (k : Fin 10) : Int :=
  let u := r 0 % 2 ^ 26 + 19 * carryBefore r 10
  if k = 0 then u % 2 ^ 26
  else (r k + carryBefore r k.val) % 2 ^ radixWidth k.val + (if k = 1 then u / 2 ^ 26 else 0)

/-- `2^E[k]`-weighted sum of ten integers with `E[k] = ceil(25.5·k)` (R7, R10). -/
def weighted (r : Fin 10 → Int) : Int := ∑ k : Fin 10, r k * 2 ^ ((51 * k.val + 1) / 2)

/-- The exponent of the modular inverse, `p − 2 = 2^255 − 21` (R150). -/
def inverseExponent : Nat := 2 ^ 255 - 21

/-- The field the represented integers are read in (R10). -/
abbrev Field := ZMod Config.p

/-- The field value of a limb vector (R10). -/
def fieldValue (f : Fe) : Field := ((val f : Int) : Field)

/-- Differential addition on field values (R170): new addend pair from the addend pair, the doubled pair and `u`. -/
def fieldAdd (u : Field) (addend doubled : Field × Field) : Field × Field :=
  let p := (addend.1 - addend.2) * (doubled.1 + doubled.2)
  let q := (addend.1 + addend.2) * (doubled.1 - doubled.2)
  ((p + q) ^ 2, (p - q) ^ 2 * u)

/-- Differential doubling on field values (R171). -/
def fieldDouble (doubled : Field × Field) : Field × Field :=
  let aa := (doubled.1 + doubled.2) ^ 2
  let bb := (doubled.1 - doubled.2) ^ 2
  (aa * bb, (aa - bb) * (aa + 121665 * (aa - bb)))

/-- The ladder on field values for bits `t − 1` down to 0 of `n`: `(slot 0, slot 1)` (R168, R173). -/
def fieldLadder (n : Nat) (u : Field) : Nat → (Field × Field) × (Field × Field) → (Field × Field) × (Field × Field)
  | 0, l => l
  | t + 1, l =>
    fieldLadder n u t
      (if n.testBit t then (fieldAdd u l.1 l.2, fieldDouble l.2) else (fieldDouble l.1, fieldAdd u l.2 l.1))

/-- The scalar multiple on field values: 256 steps from `(1, 0)` and `(u, 1)`, then `x0 · z0^(p−2)` (R166, R174). -/
def fieldSmul (n : Nat) (u : Field) : Field :=
  let l := fieldLadder n u 256 ((1, 0), (u, 1))
  l.1.1 * l.1.2 ^ inverseExponent

/-- The commands of one ladder step for `bit = 0`, as R180 lists them (slots in `F2,F3` and `F4,F5`, base in `F1`). -/
def ladderProgram0 : List Instr :=
  [.add 6 4 5, .sub 7 4 5, .add 8 2 3, .sub 9 2 3, .mul 4 7 8, .mul 5 6 9, .add 6 4 5, .sub 7 4 5,
   .sqr 4 6, .sqr 6 7, .mul 5 6 1, .sqr 6 8, .sqr 7 9, .mul 2 6 7, .sub 7 6 7, .mulc 3 7 121665, .add 6 6 3, .mul 3 6 7]

/-- The same with `F2,F3` and `F4,F5` exchanged, for `bit = 1` (R180). -/
def ladderProgram1 : List Instr :=
  [.add 6 2 3, .sub 7 2 3, .add 8 4 5, .sub 9 4 5, .mul 2 7 8, .mul 3 6 9, .add 6 2 3, .sub 7 2 3,
   .sqr 2 6, .sqr 6 7, .mul 3 6 1, .sqr 6 8, .sqr 7 9, .mul 4 6 7, .sub 7 6 7, .mulc 5 7 121665, .add 6 6 5, .mul 5 6 7]

/-- Commands executed one after another, each from the state the one before leaves. -/
def execAll : List Instr → State → Host.Outcome State Fault Refusal
  | [], s => .next s
  | i :: rest, s =>
    match exec i s with
    | .next t => execAll rest t
    | .fault r => .fault r
    | .refused r => .refused r

/-- The slots the host keeps in `F2,F3` and `F4,F5` (R180). -/
def hostSlots (s : State) : Slots := ⟨⟨s.readF 2, s.readF 3⟩, ⟨s.readF 4, s.readF 5⟩⟩

/-- The F registers a command reads (the table of R22). -/
def readsF : Instr → FReg → Prop
  | .nop, _ => False
  | .setc _ _, _ => False
  | .cpy _ a, r => r = a
  | .add _ a b, r => r = a ∨ r = b
  | .sub _ a b, r => r = a ∨ r = b
  | .mul _ a b, r => r = a ∨ r = b
  | .sqr _ a, r => r = a
  | .mulc _ a _, r => r = a
  | .inv _ a, r => r = a
  | .smul _ a _, r => r = a
  | .unpack _ _, _ => False
  | .pack _ a, r => r = a
  | .clamp _ _, _ => False

/-- The B registers a command reads (R22, R25). -/
def readsB : Instr → BReg → Prop
  | .smul _ _ b, r => r = b
  | .unpack _ a, r => r = a
  | .clamp _ a, r => r = a
  | .nop, _ => False
  | .setc _ _, _ => False
  | .cpy _ _, _ => False
  | .add _ _ _, _ => False
  | .sub _ _ _, _ => False
  | .mul _ _ _, _ => False
  | .sqr _ _, _ => False
  | .mulc _ _ _, _ => False
  | .inv _ _, _ => False
  | .pack _ _, _ => False

/-- The F register a command writes (the table of R22). -/
def writesF : Instr → FReg → Prop
  | .setc d _, r => r = d
  | .cpy d _, r => r = d
  | .add d _ _, r => r = d
  | .sub d _ _, r => r = d
  | .mul d _ _, r => r = d
  | .sqr d _, r => r = d
  | .mulc d _ _, r => r = d
  | .inv d _, r => r = d
  | .smul d _ _, r => r = d
  | .unpack d _, r => r = d
  | .nop, _ => False
  | .pack _ _, _ => False
  | .clamp _ _, _ => False

/-- The B register a command writes (R22, R25). -/
def writesB : Instr → BReg → Prop
  | .pack d _, r => r = d
  | .clamp d _, r => r = d
  | .nop, _ => False
  | .setc _ _, _ => False
  | .cpy _ _, _ => False
  | .add _ _ _, _ => False
  | .sub _ _ _, _ => False
  | .mul _ _ _, _ => False
  | .sqr _ _, _ => False
  | .mulc _ _ _, _ => False
  | .inv _ _, _ => False
  | .smul _ _ _, _ => False
  | .unpack _ _, _ => False

/-- The host's transaction is the soft reset (R31, R251). -/
def isSoftReset : Txn → Bool
  | .wr .w32 off v => off == 0x008#12 && v.getLsbD 31
  | .wr .w8 _ _ => false
  | .wr .w16 _ _ => false
  | .wr .w64 _ _ => false
  | .rd _ _ => false

/-- What a host transaction leaves besides its effect on the unit: it is off the list, its response is delivered. -/
structure TxnDone (s t : State) (rest : List Txn) (r : Response) : Prop where
  host : t.host = rest
  responses : t.responses = r :: s.responses
  schedule : t.schedule = s.schedule

end Sys2Proof.Machine

open Sys2Proof Sys2Proof.Machine

/-! ### Encoding -/

/-- R87: the worked encodings, both ways. -/
def Obligations.WorkedEncodings : Prop :=
  ∀ e ∈ ([(.nop, 0x00000000#32), (.setc 1 9, 0x11000009#32), (.cpy 2 1, 0x22100000#32), (.add 3 1 2, 0x33120000#32),
      (.sub 4 1 2, 0x44120000#32), (.mul 3 1 2, 0x53120000#32), (.sqr 5 3, 0x65300000#32),
      (.mulc 2 1 121665, 0x7211DB41#32), (.inv 6 5, 0x86500000#32), (.smul 0 1 0, 0x90100000#32),
      (.smul 15 14 3, 0x9FE30000#32), (.unpack 0 2, 0xA0200000#32), (.pack 1 0, 0xB1000000#32),
      (.clamp 1 0, 0xC1000000#32)] : List (Instr × Word)),
    encode e.1 = e.2 ∧ decode e.2 = .ok e.1

/-- R90: the listed illegal words are refused, each by the case of R88 it falls under; the nearest legal words are
not. -/
def Obligations.IllegalWordExamples : Prop :=
  (∀ e ∈ ([(0xD0000000#32, .reservedOpcode), (0xE1230000#32, .reservedOpcode), (0xFFFFFFFF#32, .reservedOpcode),
      (0x00000001#32, .mustBeZero), (0x53120001#32, .mustBeZero), (0x65310000#32, .mustBeZero),
      (0x11100009#32, .mustBeZero), (0x90140000#32, .mustBeZero), (0xB4000000#32, .mustBeZero),
      (0xA0400000#32, .mustBeZero), (0xC1400000#32, .mustBeZero)] : List (Word × Illegal)),
    decode e.1 = .error e.2) ∧
  (∀ e ∈ ([(.nop, 0x00000000#32), (.mul 3 1 2, 0x53120000#32), (.sqr 5 3, 0x65300000#32), (.setc 1 9, 0x11000009#32),
      (.smul 0 1 3, 0x90130000#32), (.pack 3 0, 0xB3000000#32), (.unpack 0 3, 0xA0300000#32),
      (.clamp 1 3, 0xC1300000#32)] : List (Instr × Word)), decode e.2 = .ok e.1)

/-- R81, R82, R86: no bit of an encoding is dropped: decoding the word of a well-formed command gives it back. -/
def Obligations.DecodeEncode : Prop := ∀ i : Instr, i.wf = true → decode (encode i) = .ok i

/-- R83, R86: a word has one meaning: what it decodes to is well-formed and has that word. -/
def Obligations.EncodeDecode : Prop :=
  ∀ (w : Word) (i : Instr), decode w = .ok i → i.wf = true ∧ encode i = w

/-- R85: a word is a command exactly when `w & mask = match` for that command's row, and R88: it is illegal exactly
when it matches no row; case (a) of R88 is the opcodes `0xD` to `0xF`. -/
def Obligations.DecodeMatchesTable : Prop :=
  ∀ w : Word,
    (∀ i, decode w = .ok i → w &&& i.row.mask = i.row.value) ∧
    (∀ i : Instr, w &&& i.row.mask = i.row.value → ∃ j, decode w = .ok j ∧ j.row = i.row) ∧
    ((∃ e, decode w = .error e) ↔ ∀ i : Instr, w &&& i.row.mask ≠ i.row.value) ∧
    (decode w = .error .reservedOpcode ↔ 0xD ≤ w.toNat / 2 ^ 28)

/-! ### The step -/

/-- R217, R83: when it is the unit's turn and the accepted word decodes to `i`, the step is `exec i`, with only the
turn taken off the schedule. -/
def Obligations.StepRunsDecodedCommand : Prop :=
  ∀ (s : State) (i : Instr), s.turn = .unit → s.status.busy = true → decode s.cmd = .ok i →
    step s = exec i s.taken ∧ SameUnit s s.taken ∧ s.taken.host = s.host ∧ s.taken.responses = s.responses ∧
      s.taken.schedule = s.schedule.tail

/-- R220: a word that matches no row of the table is accepted, and the complete step then faults with code 1, `FINFO` the
word, and no other effect. -/
def Obligations.IllegalWordFaults : Prop :=
  ∀ (s : State) (w : Word), s.Inv → s.status.fault = false → (∀ i : Instr, w &&& i.row.mask ≠ i.row.value) →
    (s.accept w).status.busy = true ∧ (s.accept w).status.done = false ∧
    ∃ t, completeStep (s.accept w) = .next t ∧ Faulted .illegalCmd (s.accept w) t ∧ t.finfo = w ∧
      t.readLoc .status = 0x00000014#32 ∧ (∀ r, t.readF r = s.readF r) ∧ ∀ r, t.readB r = s.readB r

/-- R217, R30: every command ends in a next state, without fault or with one, and never both. -/
def Obligations.CommandEnds : Prop :=
  ∀ (i : Instr) (s : State), ∃ t, exec i s = .next t ∧ (Completed s t ∨ ∃ c, Faulted c s t)

/-- R219: after a fault of a command in progress `STATUS` is `4 | code << 4`, `FINFO` and `CMD` hold the command word,
and all F and B registers hold what they held; NOP, SETC, CPY, UNPACK and CLAMP never fault (R216). -/
def Obligations.FaultEntry : Prop :=
  ∀ (i : Instr) (s t : State), s.Inv → s.status.busy = true → exec i s = .next t → t.status.fault = true →
    (∃ c : FaultCause, c ≠ .illegalCmd ∧ t.readLoc .status = (0x4#32 ||| (c.code.setWidth 32 <<< 4))) ∧
    t.readLoc .finfo = s.cmd ∧ t.readLoc .cmd = s.cmd ∧ (∀ r, t.readF r = s.readF r) ∧ (∀ r, t.readB r = s.readB r) ∧
    (match i with
     | .nop | .setc _ _ | .cpy _ _ | .unpack _ _ | .clamp _ _ => False
     | _ => True)

/-- R22, R23, R36: a command writes only its destination, and what it writes and how it ends depend only on the
registers it reads: it is a function of its source registers and its word. -/
def Obligations.CommandReadsAndWrites : Prop :=
  ∀ (i : Instr) (s s' : State), (∀ r, readsF i r → s'.readF r = s.readF r) → (∀ r, readsB i r → s'.readB r = s.readB r) →
    s'.status = s.status →
    ∃ t t', exec i s = .next t ∧ exec i s' = .next t' ∧ t'.status = t.status ∧
      (∀ r, ¬ writesF i r → t.readF r = s.readF r) ∧ (∀ r, ¬ writesB i r → t.readB r = s.readB r) ∧
      (s.status.fault = false → t.status.fault = false →
        (∀ r, writesF i r → t'.readF r = t.readF r) ∧ ∀ r, writesB i r → t'.readB r = t.readB r)

/-! ### Moves and constants -/

/-- R121: NOP is the all-zero word, completes, and writes no register. -/
def Obligations.NopCompletes : Prop :=
  decode 0x00000000#32 = .ok .nop ∧
  ∀ s : State, ∃ t, exec .nop s = .next t ∧ Completed s t ∧ (∀ r, t.readF r = s.readF r) ∧ ∀ r, t.readB r = s.readB r

/-- R122: SETC leaves `F[d] = (imm, 0, …, 0)`. -/
def Obligations.SetcCompletes : Prop :=
  ∀ (d : FReg) (imm : Nat) (s : State), immOk imm = true →
    ∃ t, exec (.setc d imm) s = .next t ∧ WroteF d s t ∧
      ∀ i, ((t.readF d).get i).toInt = if i = 0 then (imm : Int) else 0

/-- R123: CPY copies all ten limbs, whatever their values. -/
def Obligations.CpyCompletes : Prop :=
  ∀ (d a : FReg) (s : State), ∃ t, exec (.cpy d a) s = .next t ∧ WroteF d s t ∧ t.readF d = s.readF a

/-! ### Limb-wise arithmetic -/

/-- R111, R124: when every limb sum is in int64, ADD completes with exactly those limbs, and the represented integers
add. -/
def Obligations.AddCompletes : Prop :=
  ∀ (d a b : FReg) (s : State),
    (∀ i, -2 ^ 63 ≤ ((s.readF a).get i).toInt + ((s.readF b).get i).toInt ∧
      ((s.readF a).get i).toInt + ((s.readF b).get i).toInt ≤ 2 ^ 63 - 1) →
    ∃ t, exec (.add d a b) s = .next t ∧ WroteF d s t ∧
      (∀ i, ((t.readF d).get i).toInt = ((s.readF a).get i).toInt + ((s.readF b).get i).toInt) ∧
      val (t.readF d) = val (s.readF a) + val (s.readF b)

/-- R112, R125: when every limb difference is in int64, SUB completes with exactly those limbs (negative ones kept),
minuend `F[a]`, and the represented integers subtract. -/
def Obligations.SubCompletes : Prop :=
  ∀ (d a b : FReg) (s : State),
    (∀ i, -2 ^ 63 ≤ ((s.readF a).get i).toInt - ((s.readF b).get i).toInt ∧
      ((s.readF a).get i).toInt - ((s.readF b).get i).toInt ≤ 2 ^ 63 - 1) →
    ∃ t, exec (.sub d a b) s = .next t ∧ WroteF d s t ∧
      (∀ i, ((t.readF d).get i).toInt = ((s.readF a).get i).toInt - ((s.readF b).get i).toInt) ∧
      val (t.readF d) = val (s.readF a) - val (s.readF b)

/-- R222: ADD and SUB raise `LIMB_OVERFLOW` (code 3) when a result limb does not fit a signed 64-bit word. -/
def Obligations.LimbOverflowFaults : Prop :=
  ∀ (d a b : FReg) (i : Fin 10) (s : State), s.Inv → s.status.busy = true →
    ((((s.readF a).get i).toInt + ((s.readF b).get i).toInt < -2 ^ 63 ∨
        2 ^ 63 ≤ ((s.readF a).get i).toInt + ((s.readF b).get i).toInt) →
      ∃ t, exec (.add d a b) s = .next t ∧ Faulted .limbOverflow s t ∧ t.readLoc .status = 0x00000034#32) ∧
    ((((s.readF a).get i).toInt - ((s.readF b).get i).toInt < -2 ^ 63 ∨
        2 ^ 63 ≤ ((s.readF a).get i).toInt - ((s.readF b).get i).toInt) →
      ∃ t, exec (.sub d a b) s = .next t ∧ Faulted .limbOverflow s t ∧ t.readLoc .status = 0x00000034#32)

/-! ### Multiplication -/

/-- R117, R126: for operands bounded by `2^27`, MUL completes and `F[d]` holds the carry pass of the raw sums of R114
in their general form. -/
def Obligations.MulCompletes : Prop :=
  ∀ (d a b : FReg) (s : State),
    (∀ i, |((s.readF a).get i).toInt| ≤ 2 ^ 27) → (∀ i, |((s.readF b).get i).toInt| ≤ 2 ^ 27) →
    ∃ t, exec (.mul d a b) s = .next t ∧ WroteF d s t ∧
      ints (t.readF d) = Ten.ofFn (carrySpec (rawSpec (ints (s.readF a)) (ints (s.readF b))))

/-- R118, R127: for an operand bounded by `2^27`, SQR completes with the limbs the raw sums of R114 give, and it is MUL
of the register with itself, limb for limb. -/
def Obligations.SqrCompletes : Prop :=
  ∀ (d a : FReg) (s : State), (∀ i, |((s.readF a).get i).toInt| ≤ 2 ^ 27) →
    ∃ t, exec (.sqr d a) s = .next t ∧ WroteF d s t ∧
      ints (t.readF d) = Ten.ofFn (carrySpec (rawSpec (ints (s.readF a)) (ints (s.readF a)))) ∧
      exec (.mul d a a) s = .next t

/-- R119, R128: for an operand bounded by `2^40`, MULC completes and `F[d]` holds the carry pass of the limbs times
`imm`; with `imm = 0` that is the zero vector. -/
def Obligations.MulcCompletes : Prop :=
  ∀ (d a : FReg) (imm : Nat) (s : State), immOk imm = true → (∀ i, |((s.readF a).get i).toInt| ≤ 2 ^ 40) →
    ∃ t, exec (.mulc d a imm) s = .next t ∧ WroteF d s t ∧
      ints (t.readF d) = Ten.ofFn (carrySpec fun i => ((s.readF a).get i).toInt * imm) ∧
      (imm = 0 → ∀ i, ((t.readF d).get i).toInt = 0)

/-- R221: MUL, SQR and INV with a source limb above `2^27`, MULC above `2^40`, SMUL above `2^26` raise `OPERAND_BOUND`
(code 2) and write nothing. -/
def Obligations.OperandBoundFaults : Prop :=
  ∀ (d a b : FReg) (k : BReg) (imm : Nat) (i : Fin 10) (s : State), s.Inv → s.status.busy = true →
    (2 ^ 27 < |((s.readF a).get i).toInt| →
      ∀ c ∈ [Instr.mul d a b, .mul d b a, .sqr d a, .inv d a],
        ∃ t, exec c s = .next t ∧ Faulted .operandBound s t ∧ t.readLoc .status = 0x00000024#32) ∧
    (2 ^ 40 < |((s.readF a).get i).toInt| →
      ∃ t, exec (.mulc d a imm) s = .next t ∧ Faulted .operandBound s t ∧ t.readLoc .status = 0x00000024#32) ∧
    (2 ^ 26 < |((s.readF a).get i).toInt| →
      ∃ t, exec (.smul d a k) s = .next t ∧ Faulted .operandBound s t ∧ t.readLoc .status = 0x00000024#32)

/-- R120: for operands in bound no intermediate of a product leaves int64, in whatever order the terms of a raw sum are
added (the sum of their magnitudes is bounded), and the result is in carried form, with the bounds the rule gives: part
(a) for MUL, part (b) for MULC. Carried-form results are bounded by `2^26`, their sums and differences by `2^27`. Part
(c): with a bound of `2^28` a raw sum leaves int64. -/
def Obligations.ProductsNeverOverflow : Prop :=
  (∀ a b : Fe, (∀ i, |(a.get i).toInt| ≤ 2 ^ 27) → (∀ i, |(b.get i).toInt| ≤ 2 ^ 27) →
    (∀ k i j, |rawTerm (ints a) (ints b) k i j| ≤ 38 * 2 ^ 54) ∧
    (∀ k, ∑ i : Fin 10, ∑ j : Fin 10, |rawTerm (ints a) (ints b) k i j| ≤ 267 * 2 ^ 54) ∧
    (∀ k, |(rawSums (ints a) (ints b)).get k| ≤ 267 * 2 ^ 54) ∧
    (∀ k, |(carryIn (rawSums (ints a) (ints b))).get k - (rawSums (ints a) (ints b)).get k| < 2 ^ 37) ∧
    (∀ k, |(carryIn (rawSums (ints a) (ints b))).get k| < 2 ^ 63) ∧
    |carryOut (rawSums (ints a) (ints b))| ≤ 10 * 2 ^ 29 + 2 ^ 10 ∧
    |19 * carryOut (rawSums (ints a) (ints b))| < 2 ^ 37 ∧
    |hiPart 26 (foldIn (rawSums (ints a) (ints b)))| ≤ 1521 ∧
    ∃ r, feMul a b = .ok r ∧ CarriedForm r ∧ -2 ^ 11 < r.l1.toInt ∧ r.l1.toInt < 2 ^ 25 + 2 ^ 11) ∧
  (∀ (a : Fe) (k : Nat), immOk k = true → (∀ i, |(a.get i).toInt| ≤ 2 ^ 40) →
    (∀ i, |(a.get i).toInt * k| < 2 ^ 60) ∧
    (∀ i, |(carryIn ((ints a).map fun x => x * k)).get i - (a.get i).toInt * k| < 2 ^ 36) ∧
    (∀ i, |(carryIn ((ints a).map fun x => x * k)).get i| < 2 ^ 63) ∧
    |19 * carryOut ((ints a).map fun x => x * k)| < 2 ^ 40 ∧
    |hiPart 26 (foldIn ((ints a).map fun x => x * k))| < 2 ^ 14 ∧
    ∃ r, feMulc a k = .ok r ∧ CarriedForm r) ∧
  (∀ f g : Fe, CarriedForm f → CarriedForm g →
    (∀ i, |(f.get i).toInt| ≤ 2 ^ 26) ∧
    ∃ s d, feAdd f g = .ok s ∧ feSub f g = .ok d ∧ (∀ i, |(s.get i).toInt| ≤ 2 ^ 27) ∧
      ∀ i, |(d.get i).toInt| ≤ 2 ^ 27) ∧
  (2 ^ 63 : Int) < (rawSums (Ten.replicate (2 ^ 28)) (Ten.replicate (2 ^ 28))).get 0

/-- R116: the carry pass is the rule's loop with its closing step, on any ten integers, and keeps the represented integer
up to the multiple of `p` that the fold takes out. -/
def Obligations.CarryPassRule : Prop :=
  ∀ r : Ten Int, (∀ k, (feCarry r).get k = carrySpec r.get k) ∧
    weighted (feCarry r).get = weighted r.get - carryBefore r.get 10 * (2 ^ 255 - 19)

/-- R129: the value laws of ADD, SUB, MUL, SQR and MULC: whenever the command completes without fault. -/
def Obligations.ValueLaws : Prop :=
  ∀ (d a b : FReg) (imm : Nat) (s t : State), t.status.fault = false → immOk imm = true →
    (exec (.add d a b) s = .next t → val (t.readF d) = val (s.readF a) + val (s.readF b)) ∧
    (exec (.sub d a b) s = .next t → val (t.readF d) = val (s.readF a) - val (s.readF b)) ∧
    (exec (.mul d a b) s = .next t → Int.ModEq Config.p (val (t.readF d)) (val (s.readF a) * val (s.readF b)) ∧
      -2 ^ 40 < val (t.readF d) ∧ val (t.readF d) < 2 ^ 255 + 2 ^ 40) ∧
    (exec (.sqr d a) s = .next t → Int.ModEq Config.p (val (t.readF d)) (val (s.readF a) ^ 2) ∧
      -2 ^ 40 < val (t.readF d) ∧ val (t.readF d) < 2 ^ 255 + 2 ^ 40) ∧
    (exec (.mulc d a imm) s = .next t → Int.ModEq Config.p (val (t.readF d)) (imm * val (s.readF a)) ∧
      -2 ^ 40 < val (t.readF d) ∧ val (t.readF d) < 2 ^ 255 + 2 ^ 40)

/-- R130: the raw sums are symmetric, so MUL with its sources exchanged leaves the same state. -/
def Obligations.MulSymmetric : Prop :=
  (∀ a b : Ten Int, rawSums a b = rawSums b a) ∧
  ∀ (d a b : FReg) (s : State), exec (.mul d a b) s = exec (.mul d b a) s

/-! ### Inverse -/

/-- R154, R157: for an operand bounded by `2^27`, INV completes and leaves a carried-form vector: no step of the chain
fails. -/
def Obligations.InvCompletes : Prop :=
  ∀ (d a : FReg) (s : State), (∀ i, |((s.readF a).get i).toInt| ≤ 2 ^ 27) →
    ∃ t, exec (.inv d a) s = .next t ∧ WroteF d s t ∧ CarriedForm (t.readF d)

/-- R150, R152: the field value INV leaves is the source's to the power `p − 2 = 2^255 − 21`. -/
def Obligations.InvValueLaw : Prop :=
  ∀ (d a : FReg) (s : State), (∀ i, |((s.readF a).get i).toInt| ≤ 2 ^ 27) →
    ∃ t, exec (.inv d a) s = .next t ∧ fieldValue (t.readF d) = fieldValue (s.readF a) ^ inverseExponent

/-- R155: INV of the zero vector is the zero vector, without fault, and a source in bound of field value 0 gives field
value 0. -/
def Obligations.InvOfZero : Prop :=
  ∀ (d a : FReg) (s : State),
    ((∀ i, (s.readF a).get i = 0) →
      ∃ t, exec (.inv d a) s = .next t ∧ WroteF d s t ∧ ∀ i, (t.readF d).get i = 0) ∧
    ((∀ i, |((s.readF a).get i).toInt| ≤ 2 ^ 27) → fieldValue (s.readF a) = 0 →
      ∃ t, exec (.inv d a) s = .next t ∧ WroteF d s t ∧ fieldValue (t.readF d) = 0)

/-- R156: for an in-bound vector whose field value is not 0, the product with its inverse represents 1 modulo `p` and
packs to the bytes `01 00 … 00`. -/
def Obligations.InverseLaw : Prop :=
  ∀ x : Fe, (∀ i, |(x.get i).toInt| ≤ 2 ^ 27) → fieldValue x ≠ 0 →
    ∃ y z c, feInv x = .ok y ∧ feMul x y = .ok z ∧ Int.ModEq Config.p (val z) 1 ∧ fePack z = .ok c ∧ le256 c = 1

/-! ### Scalar multiplication -/

/-- R175, R176: for a base bounded by `2^26` and any scalar, SMUL completes and leaves a carried-form vector: the only
check that can fail is the one on entry. -/
def Obligations.SmulCompletes : Prop :=
  ∀ (d a : FReg) (b : BReg) (s : State), (∀ i, |((s.readF a).get i).toInt| ≤ 2 ^ 26) →
    ∃ t, exec (.smul d a b) s = .next t ∧ WroteF d s t ∧ CarriedForm (t.readF d)

/-- R170 to R174: SMUL's limbs represent what the ladder computes on field values, for all 256 bits of the scalar. -/
def Obligations.SmulRefinesFieldLadder : Prop :=
  ∀ (d a : FReg) (b : BReg) (s : State), (∀ i, |((s.readF a).get i).toInt| ≤ 2 ^ 26) →
    ∃ t, exec (.smul d a b) s = .next t ∧
      fieldValue (t.readF d) = fieldSmul (le256 (s.readB b)) (fieldValue (s.readF a))

/-- R177: the all-zero scalar gives the zero vector exactly. -/
def Obligations.SmulOfZeroScalar : Prop :=
  ∀ (d a : FReg) (b : BReg) (s : State), (∀ i, |((s.readF a).get i).toInt| ≤ 2 ^ 26) → le256 (s.readB b) = 0 →
    ∃ t, exec (.smul d a b) s = .next t ∧ WroteF d s t ∧ ∀ i, (t.readF d).get i = 0

/-- R180: the host's eighteen primitive commands leave in the slot registers exactly the limbs of `ladder_step`, for
either bit. -/
def Obligations.HostLadderStep : Prop :=
  ∀ s : State,
    (∀ r ∈ ([1, 2, 3, 4, 5] : List FReg), ∀ i, |((s.readF r).get i).toInt| ≤ 2 ^ 26) →
    (∃ t l, execAll ladderProgram0 s = .next t ∧ ladderStep (hostSlots s) (s.readF 1) false = .ok l ∧
      hostSlots t = l ∧ t.readF 1 = s.readF 1 ∧ t.status.fault = s.status.fault) ∧
    (∃ t l, execAll ladderProgram1 s = .next t ∧ ladderStep (hostSlots s) (s.readF 1) true = .ok l ∧
      hostSlots t = l ∧ t.readF 1 = s.readF 1 ∧ t.status.fault = s.status.fault)

/-! ### Codec and clamp -/

/-- R191, R192, R193: UNPACK leaves the bit slices of `le256(B[a])`, bit 255 included; the result is in strict form and
represents that integer exactly. -/
def Obligations.UnpackCompletes : Prop :=
  ∀ (d : FReg) (a : BReg) (s : State), ∃ t, exec (.unpack d a) s = .next t ∧ WroteF d s t ∧
    (∀ i : Fin 10, ((t.readF d).get i).toInt =
      (le256 (s.readB a) / 2 ^ ((51 * i.val + 1) / 2) % 2 ^ (if i.val % 2 = 0 ∨ i.val = 9 then 26 else 25) : Nat)) ∧
    StrictForm (t.readF d) ∧ val (t.readF d) = le256 (s.readB a)

/-- R197, R199: for a represented integer in `[−p, 2p)`, PACK completes and leaves the canonical representative. -/
def Obligations.PackCompletes : Prop :=
  ∀ (d : BReg) (a : FReg) (s : State), -(2 ^ 255 - 19) ≤ val (s.readF a) → val (s.readF a) < 2 * (2 ^ 255 - 19) →
    ∃ t, exec (.pack d a) s = .next t ∧ WroteB d s t ∧
      (le256 (t.readB d) : Int) = val (s.readF a) % (2 ^ 255 - 19)

/-- R223: PACK raises `PACK_RANGE` (code 4) outside `[−p, 2p)`, and writes nothing. -/
def Obligations.PackRangeFaults : Prop :=
  ∀ (d : BReg) (a : FReg) (s : State), s.Inv → s.status.busy = true →
    (val (s.readF a) < -(2 ^ 255 - 19) ∨ 2 * (2 ^ 255 - 19) ≤ val (s.readF a)) →
    ∃ t, exec (.pack d a) s = .next t ∧ Faulted .packRange s t ∧ t.readLoc .status = 0x00000044#32

/-- R200: UNPACK then PACK gives `le256(b) mod p` back whenever `le256(b) < 2p`, the same bytes exactly when
`le256(b) < p`, and faults for the 38 values from `2p` on; PACK then UNPACK gives the strict form of `val mod p`, which
need not be the vector packed. -/
def Obligations.PackUnpackRoundTrip : Prop :=
  (∀ b : Bytes32,
    (le256 b < 2 * (2 ^ 255 - 19) →
      ∃ c, fePack (feUnpack b) = .ok c ∧ le256 c = le256 b % (2 ^ 255 - 19) ∧ (c = b ↔ le256 b < 2 ^ 255 - 19)) ∧
    (2 * (2 ^ 255 - 19) ≤ le256 b → fePack (feUnpack b) = .error .packRange)) ∧
  (∀ (f : Fe) (c : Bytes32), fePack f = .ok c →
    StrictForm (feUnpack c) ∧ val (feUnpack c) = val f % (2 ^ 255 - 19)) ∧
  (∃ (f : Fe) (c : Bytes32), fePack f = .ok c ∧ feUnpack c ≠ f)

/-- R205, R206: CLAMP completes with the three byte-wise changes of the rule and no other. -/
def Obligations.ClampCompletes : Prop :=
  ∀ (d a : BReg) (s : State), ∃ t, exec (.clamp d a) s = .next t ∧ WroteB d s t ∧
    byteOf (t.readB d) 0 = byteOf (s.readB a) 0 &&& 0xF8#8 ∧
    byteOf (t.readB d) 31 = ((byteOf (s.readB a) 31 &&& 0x7F#8) ||| 0x40#8) ∧
    ∀ j, 1 ≤ j → j ≤ 30 → byteOf (t.readB d) j = byteOf (s.readB a) j

/-- R205: the three changes `clamp32` makes, that it is idempotent, and that its value is a multiple of 8 in
`[2^254, 2^255)`. -/
def Obligations.ClampedScalar : Prop :=
  ∀ b : Bytes32,
    byteOf (clamp32 b) 0 = byteOf b 0 &&& 0xF8#8 ∧ byteOf (clamp32 b) 31 = ((byteOf b 31 &&& 0x7F#8) ||| 0x40#8) ∧
    (∀ j, 1 ≤ j → j ≤ 30 → byteOf (clamp32 b) j = byteOf b j) ∧ clamp32 (clamp32 b) = clamp32 b ∧ le256 (clamp32 b) % 8 = 0 ∧ 2 ^ 254 ≤ le256 (clamp32 b) ∧
    le256 (clamp32 b) < 2 ^ 255

/-! ### The host register window -/

/-- R50, R58, R59: the offsets of the window: each implemented word has one offset, and an offset names none exactly
when it is misaligned or reserved. -/
def Obligations.WindowMap : Prop :=
  (∀ l : Loc, locate l.offset = some l) ∧
  (∀ (off : Offset) (l : Loc), locate off = some l → l.offset = off) ∧
  (∀ off : Offset, locate off = none ↔
    off.toNat % 4 ≠ 0 ∨ (0x014 ≤ off.toNat ∧ off.toNat ≤ 0x0FF) ∨ (0x180 ≤ off.toNat ∧ off.toNat ≤ 0x7FF) ∨
      (0x800 ≤ off.toNat ∧ 0x50 ≤ (off.toNat - 0x800) % 0x80))

/-- R56: the words of the B window: where they are and that no offset among them is reserved, what a read returns, what a
write replaces and keeps, and how the eight words make up `le256`. -/
def Obligations.BWindowWord : Prop :=
  ∀ (s : State) (r : BReg) (w : Fin 8) (v : Word),
    (Loc.bWord r w).offset.toNat = 0x100 + 0x20 * r.val + 4 * w.val ∧
    (s.readLoc (.bWord r w)).toNat =
      (byteOf (s.readB r) (4 * w.val)).toNat + (byteOf (s.readB r) (4 * w.val + 1)).toNat * 2 ^ 8 +
      (byteOf (s.readB r) (4 * w.val + 2)).toNat * 2 ^ 16 + (byteOf (s.readB r) (4 * w.val + 3)).toNat * 2 ^ 24 ∧
    (∀ j < 32, byteOf ((s.writeLoc v (.bWord r w)).readB r) j =
      if 4 * w.val ≤ j ∧ j < 4 * w.val + 4 then v.extractLsb' (8 * (j - 4 * w.val)) 8 else byteOf (s.readB r) j) ∧
    le256 (s.readB r) = ∑ x : Fin 8, (s.readLoc (.bWord r x)).toNat * 2 ^ (32 * x.val) ∧
    ∀ off : Offset, 0x100 ≤ off.toNat → off.toNat < 0x180 → off.toNat % 4 = 0 →
      ∃ r' w', locate off = some (.bWord r' w')

/-- R57: the halves of a limb: where they are and which slot offsets are reserved, what a read returns, what a write
replaces and keeps; writing both halves of `L`, in either order, loads `L`. -/
def Obligations.FWindowHalf : Prop :=
  ∀ (s : State) (r : FReg) (i : Fin 10) (v : Word) (x : Limb),
    (Loc.fHalf r i false).offset.toNat = 0x800 + 0x80 * r.val + 8 * i.val ∧
    (Loc.fHalf r i true).offset.toNat = 0x800 + 0x80 * r.val + 8 * i.val + 4 ∧
    ((s.readLoc (.fHalf r i false)).toNat : Int) = ((s.readF r).get i).toInt % 2 ^ 32 ∧
    ((s.readLoc (.fHalf r i true)).toNat : Int) = ((s.readF r).get i).toInt / 2 ^ 32 % 2 ^ 32 ∧
    (s.writeLoc v (.fHalf r i false)).readLoc (.fHalf r i true) = s.readLoc (.fHalf r i true) ∧
    (s.writeLoc v (.fHalf r i true)).readLoc (.fHalf r i false) = s.readLoc (.fHalf r i false) ∧
    (∀ high, (s.writeLoc v (.fHalf r i high)).readLoc (.fHalf r i high) = v ∧
      ∀ r' j, (r', j) ≠ (r, i) → ((s.writeLoc v (.fHalf r i high)).readF r').get j = (s.readF r').get j) ∧
    (∀ off : Offset, 0x800 + 0x80 * r.val + 0x50 ≤ off.toNat → off.toNat ≤ 0x800 + 0x80 * r.val + 0x7F →
      locate off = none) ∧
    (let lo := BitVec.ofInt 32 (x.toInt % 2 ^ 32)
     let hi := BitVec.ofInt 32 (x.toInt / 2 ^ 32 % 2 ^ 32)
     (((s.writeLoc lo (.fHalf r i false)).writeLoc hi (.fHalf r i true)).readF r).get i = x ∧
     (((s.writeLoc hi (.fHalf r i true)).writeLoc lo (.fHalf r i false)).readF r).get i = x)

/-- R62, R56, R57: a word of the B or F window reads as last written, and every other word of the window, data or
control, reads as before. -/
def Obligations.WindowReadsLastWrite : Prop :=
  ∀ (s : State) (l : Loc) (v : Word), l.isData = true →
    (s.writeLoc v l).readLoc l = v ∧ ∀ l' : Loc, l' ≠ l → (s.writeLoc v l).readLoc l' = s.readLoc l'

/-- R52: a read that is not held answers the word at its offset and has no side effect. -/
def Obligations.HostReads : Prop :=
  ∀ (s : State) (off : Offset) (l : Loc) (rest : List Txn), locate off = some l →
    (s.status.busy = true → l.isData = false) → s.host = .rd .w32 off :: rest →
    SameUnit s s.hostStep ∧ TxnDone s s.hostStep rest (.okValue (s.readLoc l)) ∧
      s.hostStep.readLoc l = s.readLoc l

/-- R53, R56, R57: a write to the B or F window while no command is in progress, faulted or not, replaces the word at
its offset: it reads as written, every other word of the window reads as before. -/
def Obligations.HostWritesData : Prop :=
  ∀ (s : State) (off : Offset) (v : Word) (l : Loc) (rest : List Txn), locate off = some l → l.isData = true →
    s.status.busy = false → s.host = .wr .w32 off v :: rest →
    TxnDone s s.hostStep rest .ok ∧ s.hostStep.readLoc l = v ∧
      ∀ l' : Loc, l' ≠ l → s.hostStep.readLoc l' = s.readLoc l'

/-- R52, R53, R58, R59, R234: an access that is not 32 bits wide, or whose offset is misaligned or reserved, answers
`ERR`, also while a command is in progress, and changes nothing in the unit. That the host then goes on with its next
transaction, where R58 speaks of a refusal, is the model's reading (log entry 4, DEDUCED). -/
def Obligations.ErrChangesNothing : Prop :=
  ∀ (s : State) (width : Width) (off : Offset) (v : Word) (rest : List Txn),
    (width ≠ .w32 ∨ off.toNat % 4 ≠ 0 ∨ (0x014 ≤ off.toNat ∧ off.toNat ≤ 0x0FF) ∨
      (0x180 ≤ off.toNat ∧ off.toNat ≤ 0x7FF) ∨ (0x800 ≤ off.toNat ∧ 0x50 ≤ (off.toNat - 0x800) % 0x80)) →
    (s.host = .rd width off :: rest ∨ s.host = .wr width off v :: rest) →
    SameUnit s s.hostStep ∧ TxnDone s s.hostStep rest .err

/-- R60: while a command is in progress, accesses to the B and F windows and writes of `CMD` do not complete; accesses
to the control registers do (a write of `CMD` apart); and once `BUSY` is 0 nothing is held. -/
def Obligations.HoldWhileBusy : Prop :=
  (∀ (s : State) (off : Offset) (v : Word) (rest : List Txn) (l : Loc), s.Inv → s.status.busy = true →
    locate off = some l →
    (l.isData = true → s.host = .rd .w32 off :: rest ∨ s.host = .wr .w32 off v :: rest → s.hostStep = s) ∧
    (l = .cmd → s.host = .wr .w32 off v :: rest → s.hostStep = s) ∧
    (l.isData = false → s.host = .rd .w32 off :: rest → s.hostStep.host = rest) ∧
    (l = .status ∨ l = .ctrl ∨ l = .finfo ∨ l = .id → s.host = .wr .w32 off v :: rest →
      TxnDone s s.hostStep rest .ok)) ∧
  (∀ (s : State) (t : Txn) (rest : List Txn), s.status.busy = false → s.host = t :: rest → s.hostStep.host = rest)

/-- R29, R257: a write of `CMD` accepts the command when the unit is idle and not faulted, and is ignored with `OK`
when it is faulted. -/
def Obligations.CmdWrite : Prop :=
  ∀ (s : State) (w : Word) (rest : List Txn), s.status.busy = false → s.host = .wr .w32 0x000#12 w :: rest →
    TxnDone s s.hostStep rest .ok ∧
    (s.status.fault = true → SameUnit s s.hostStep) ∧
    (s.status.fault = false →
      s.hostStep.cmd = w ∧ s.hostStep.status.busy = true ∧ s.hostStep.status.done = false ∧
      s.hostStep.status.fault = false ∧ s.hostStep.status.cause = s.status.cause ∧ s.hostStep.ctrl = s.ctrl ∧
      s.hostStep.finfo = s.finfo ∧ (∀ r, s.hostStep.readF r = s.readF r) ∧ ∀ r, s.hostStep.readB r = s.readB r)

/-- R30: a host write of `STATUS`, at any time, clears `DONE` when bit 1 is written as 1; every other written bit is
ignored. -/
def Obligations.StatusWrite : Prop :=
  ∀ (s : State) (v : Word) (rest : List Txn), s.host = .wr .w32 0x004#12 v :: rest →
    TxnDone s s.hostStep rest .ok ∧
    s.hostStep.status.done = (s.status.done && !v.getLsbD 1) ∧ s.hostStep.status.busy = s.status.busy ∧
    s.hostStep.status.fault = s.status.fault ∧ s.hostStep.status.cause = s.status.cause ∧
    s.hostStep.cmd = s.cmd ∧ s.hostStep.ctrl = s.ctrl ∧ s.hostStep.finfo = s.finfo ∧
    (∀ r, s.hostStep.readF r = s.readF r) ∧ ∀ r, s.hostStep.readB r = s.readB r

/-- R30, R31: what `STATUS` and `CTRL` read as: each field in its bits, reserved bits and `SRST` 0. -/
def Obligations.ControlRegisterBits : Prop :=
  ∀ s : State,
    (∀ n < 32, (s.readLoc .status).getLsbD n =
      (if n = 0 then s.status.busy else if n = 1 then s.status.done else if n = 2 then s.status.fault
       else if 4 ≤ n ∧ n < 8 then s.status.cause.getLsbD (n - 4) else false)) ∧
    (∀ n < 32, (s.readLoc .ctrl).getLsbD n =
      (if n = 0 then s.ctrl.ieDone else if n = 1 then s.ctrl.ieFault else false))

/-- R31: a host write of `CTRL` with bit 31 clear sets the two enables and nothing else; what is then read back is
bits 1:0 of what was written. -/
def Obligations.CtrlWrite : Prop :=
  ∀ (s : State) (v : Word) (rest : List Txn), v.getLsbD 31 = false → s.host = .wr .w32 0x008#12 v :: rest →
    TxnDone s s.hostStep rest .ok ∧ s.hostStep.readLoc .ctrl = v &&& 0x3#32 ∧
    s.hostStep.status = s.status ∧ s.hostStep.cmd = s.cmd ∧ s.hostStep.finfo = s.finfo ∧
    (∀ r, s.hostStep.readF r = s.readF r) ∧ ∀ r, s.hostStep.readB r = s.readB r

/-- R32, R33, R53: writes of `FINFO` and `ID` are ignored with `OK`, at any time; `ID` always reads `0x25519001`. -/
def Obligations.ReadOnlyRegisters : Prop :=
  ∀ (s : State) (off : Offset) (v : Word) (rest : List Txn), (off = 0x00C#12 ∨ off = 0x010#12) →
    s.host = .wr .w32 off v :: rest →
    SameUnit s s.hostStep ∧ TxnDone s s.hostStep rest .ok ∧ s.hostStep.readLoc .id = 0x25519001#32

/-! ### Reset, faults, progress -/

/-- R38: the values every register has at reset, and has again after a reset from any state. -/
def Obligations.ResetValues : Prop :=
  ∀ s : State, ∀ u ∈ [State.reset, s.resetUnit],
    (∀ r i, (u.readF r).get i = 0) ∧ (∀ r, ∀ j < 32, byteOf (u.readB r) j = 0) ∧ u.readLoc .cmd = 0 ∧
    u.readLoc .status = 0 ∧ u.readLoc .ctrl = 0 ∧ u.readLoc .finfo = 0 ∧ u.readLoc .id = 0x25519001#32 ∧
    u.irq = false

/-- R251: a host write of `CTRL` with bit 31 set, at any time (idle, busy or faulted), has exactly the effect of a hard
reset, and answers `OK`. -/
def Obligations.SoftReset : Prop :=
  ∀ (s : State) (v : Word) (rest : List Txn), v.getLsbD 31 = true → s.host = .wr .w32 0x008#12 v :: rest →
    SameUnit State.reset s.hostStep ∧ TxnDone s s.hostStep rest .ok

/-- R250: the reset input, at any time, leaves the unit at its reset values; the host's side of the port keeps what it
holds (the model's choice, log entry 2). -/
def Obligations.HardReset : Prop :=
  ∀ s : State, s.turn = .resetLine →
    ∃ t, step s = .next t ∧ SameUnit State.reset t ∧ t.host = s.host ∧ t.responses = s.responses ∧
      t.schedule = s.schedule.tail

/-- The status invariant holds at reset (R38). -/
def Obligations.ResetMeetsInvariant : Prop := State.reset.Inv

/-- R30, R32, R216, R219, R224: every step, whoever takes it, keeps the status invariant. -/
def Obligations.StepKeepsInvariant : Prop := ∀ s t : State, s.Inv → step s = .next t → t.Inv

/-- R219, R227: in the faulted state nothing executes and nothing but reset leaves it: every other step keeps `FAULT`,
`CAUSE`, `FINFO` and `CMD`, `DONE` stays 0, no command is accepted, and the unit's turn changes no register. -/
def Obligations.FaultIsSticky : Prop :=
  ∀ s t : State, s.Inv → s.status.fault = true → step s = .next t → s.turn ≠ .resetLine →
    (s.turn = .host → ∀ x rest, s.host = x :: rest → isSoftReset x = false) →
    t.status.fault = true ∧ t.status.cause = s.status.cause ∧ t.finfo = s.finfo ∧ t.cmd = s.cmd ∧
      t.status.done = false ∧ t.status.busy = false ∧ (s.turn = .unit → SameUnit s t)

/-- R224: the interrupt output after a command ends: `IE_DONE` if it completed, `IE_FAULT` if it faulted. -/
def Obligations.InterruptOutput : Prop :=
  ∀ (i : Instr) (s t : State), s.Inv → s.status.busy = true → exec i s = .next t →
    s.irq = false ∧ t.irq = (if t.status.fault then s.ctrl.ieFault else s.ctrl.ieDone)

/-- R258: a command in progress ends: whatever the schedule, `BUSY` is 0 after at most one step more than the schedule
is long. -/
def Obligations.CommandFinishes : Prop :=
  ∀ s : State, s.status.busy = true →
    ∃ k t, k ≤ s.schedule.length + 1 ∧ core.run k s = .next t ∧ t.status.busy = false

/-- R14, R264: without resets, who moves when (how often the host polls before a complete step) has no influence on the
data: after enough steps every schedule has ended, with the same F and B registers, `CMD`, `FINFO`, `FAULT` and `CAUSE`
as when each command completes at once. The schedule is the model's (log entry 1). -/
def Obligations.ScheduleDoesNotChangeResults : Prop :=
  ∀ (s : State) (k : Nat), s.Inv → .resetLine ∉ s.schedule → (∀ x ∈ s.host, isSoftReset x = false) →
    s.schedule.length + 2 * s.host.length + 1 ≤ k →
    ∃ t t' : State, core.run k s = .next t ∧ core.run k ({ s with schedule := [] } : State) = .next t' ∧
      t.Ended ∧ t'.Ended ∧ t.f = t'.f ∧ t.b = t'.b ∧ t.cmd = t'.cmd ∧ t.finfo = t'.finfo ∧
      t.status.fault = t'.status.fault ∧ t.status.cause = t'.status.cause
end

