-- ==== Sys2Proof/Laws/Bits.lean ====
section
/-! SUPPORT. What replacing a run of bits does, said once: bytes, window words and limb halves are all runs of bits. -/

namespace Sys2Proof.Machine

/-- Bit by bit: inside the run the new bits, outside it the old ones. -/
theorem getLsbD_replaceBits {n m : Nat} (x : BitVec n) (lo : Nat) (v : BitVec m) (k : Nat) (h : k < n) :
    (replaceBits x lo v).getLsbD k = if lo ≤ k ∧ k < lo + m then v.getLsbD (k - lo) else x.getLsbD k := by
  simp only [replaceBits, BitVec.getLsbD_or, BitVec.getLsbD_and, BitVec.getLsbD_not, BitVec.getLsbD_shiftLeft,
    BitVec.getLsbD_setWidth, BitVec.getLsbD_allOnes]
  by_cases h1 : lo ≤ k
  · have h3 : ¬ k < lo := by omega
    by_cases h2 : k < lo + m
    · have h4 : k - lo < m := by omega
      have h5 : k - lo < n := by omega
      simp [h1, h2, h3, h4, h5, h]
    · have h4 : ¬ k - lo < m := by omega
      simp [h1, h2, h3, h4, h, BitVec.getLsbD_of_ge v (k - lo) (by omega)]
  · have h3 : k < lo := by omega
    simp [h1, h3, h]

/-- The run just written reads as written. -/
theorem extractLsb'_replaceBits_same {n m : Nat} (x : BitVec n) (lo : Nat) (v : BitVec m) (h : lo + m ≤ n) :
    (replaceBits x lo v).extractLsb' lo m = v := by
  apply BitVec.eq_of_getLsbD_eq
  intro i hi
  rw [BitVec.getLsbD_extractLsb', getLsbD_replaceBits _ _ _ _ (by omega)]
  simp [hi]

/-- A run that does not meet the one written reads as before. -/
theorem extractLsb'_replaceBits_disjoint {n m : Nat} (x : BitVec n) (lo : Nat) (v : BitVec m) (lo' m' : Nat)
    (h : lo' + m' ≤ n) (hd : lo' + m' ≤ lo ∨ lo + m ≤ lo') :
    (replaceBits x lo v).extractLsb' lo' m' = x.extractLsb' lo' m' := by
  apply BitVec.eq_of_getLsbD_eq
  intro i hi
  rw [BitVec.getLsbD_extractLsb', BitVec.getLsbD_extractLsb', getLsbD_replaceBits _ _ _ _ (by omega)]
  have : ¬(lo ≤ lo' + i ∧ lo' + i < lo + m) := by omega
  simp [hi, this]

/-- A run inside the one written reads the corresponding bits of what was written. -/
theorem extractLsb'_replaceBits_inside {n m : Nat} (x : BitVec n) (lo : Nat) (v : BitVec m) (lo' m' : Nat)
    (h : lo + m ≤ n) (h1 : lo ≤ lo') (h2 : lo' + m' ≤ lo + m) :
    (replaceBits x lo v).extractLsb' lo' m' = v.extractLsb' (lo' - lo) m' := by
  apply BitVec.eq_of_getLsbD_eq
  intro i hi
  rw [BitVec.getLsbD_extractLsb', BitVec.getLsbD_extractLsb', getLsbD_replaceBits _ _ _ _ (by omega)]
  have : lo ≤ lo' + i ∧ lo' + i < lo + m := by omega
  simp [hi, this, Nat.sub_add_comm h1]

theorem byteOf_setByte (b : Bytes32) (j j' : Nat) (v : Byte) (h : j < 32) (h' : j' < 32) :
    byteOf (setByte b j v) j' = if j' = j then v else byteOf b j' := by
  by_cases e : j' = j
  · subst e
    simpa [byteOf, setByte] using extractLsb'_replaceBits_same b (8 * j') v (by omega)
  · rw [if_neg e]
    exact extractLsb'_replaceBits_disjoint b (8 * j) v (8 * j') 8 (by omega) (by omega)

theorem wordOf_setWord (b : Bytes32) (w w' : Fin 8) (v : Word) :
    wordOf (setWord b w v) w' = if w' = w then v else wordOf b w' := by
  by_cases e : w' = w
  · subst e
    simpa [wordOf, setWord] using extractLsb'_replaceBits_same b (32 * w'.val) v (by omega)
  · rw [if_neg e]
    exact extractLsb'_replaceBits_disjoint b (32 * w.val) v (32 * w'.val) 32 (by omega) (by omega)

theorem halfOf_setHalf (l : Limb) (high high' : Bool) (v : Word) :
    halfOf (setHalf l high v) high' = if high' = high then v else halfOf l high' := by
  by_cases e : high' = high
  · subst e
    rw [if_pos rfl]
    exact extractLsb'_replaceBits_same l (halfBit high') v (by cases high' <;> simp [halfBit])
  · rw [if_neg e]
    exact extractLsb'_replaceBits_disjoint l (halfBit high) v (halfBit high') 32
      (by cases high' <;> simp [halfBit]) (by cases high <;> cases high' <;> simp_all [halfBit])

/-- A bit of a 32-byte value is the same bit of its integer (R9). -/
theorem bitOf_eq_testBit (b : Bytes32) (t : Nat) : bitOf b t = (le256 b).testBit t := by
  have h : 8 * (t / 8) + t % 8 = t := by omega
  have h' : t % 8 < 8 := by omega
  simp [bitOf, byteOf, le256, h, h', BitVec.testBit_toNat]

end Sys2Proof.Machine
end

