-- ==== Sys2Proof/Laws/Encoding.lean ====
section
/-! SUPPORT. The fields of the two word formats, read and written (R81, R82). -/

namespace Sys2Proof

theorem wordR_toNat {op d a b : Nat} (h : op < 16 ∧ d < 16 ∧ a < 16 ∧ b < 16) :
    (wordR op d a b).toNat = op * 268435456 + d * 16777216 + a * 1048576 + b * 65536 := by
  simp only [wordR, BitVec.toNat_ofNat]; omega

theorem wordI_toNat {op d a imm : Nat} (h : op < 16 ∧ d < 16 ∧ a < 16 ∧ imm < 1048576) :
    (wordI op d a imm).toNat = op * 268435456 + d * 16777216 + a * 1048576 + imm := by
  simp only [wordI, BitVec.toNat_ofNat]; omega

/-! Each field of a word as a number. -/

theorem opField_toNat (w : Word) : (opField w).toNat = w.toNat / 268435456 := by
  have := w.isLt
  rw [opField, BitVec.extractLsb'_toNat, Nat.shiftRight_eq_div_pow]; omega

theorem dField_toNat (w : Word) : (dField w).toNat = w.toNat / 16777216 % 16 := by
  rw [dField, BitVec.extractLsb'_toNat, Nat.shiftRight_eq_div_pow]

theorem aField_toNat (w : Word) : (aField w).toNat = w.toNat / 1048576 % 16 := by
  rw [aField, BitVec.extractLsb'_toNat, Nat.shiftRight_eq_div_pow]

theorem bField_toNat (w : Word) : (bField w).toNat = w.toNat / 65536 % 16 := by
  rw [bField, BitVec.extractLsb'_toNat, Nat.shiftRight_eq_div_pow]

theorem lowField_toNat (w : Word) : (lowField w).toNat = w.toNat % 65536 := by
  rw [lowField, BitVec.extractLsb'_toNat, Nat.shiftRight_eq_div_pow, Nat.pow_zero, Nat.div_one]

theorem immField_eq (w : Word) : immField w = w.toNat % 1048576 := by
  rw [immField, BitVec.extractLsb'_toNat, Nat.shiftRight_eq_div_pow, Nat.pow_zero, Nat.div_one]

/-- What a format-R word carries in each field. -/
theorem wordR_fields {op d a b : Nat} (h : op < 16 ∧ d < 16 ∧ a < 16 ∧ b < 16) :
    (opField (wordR op d a b)).toNat = op ∧ dField (wordR op d a b) = BitVec.ofNat 4 d ∧
    aField (wordR op d a b) = BitVec.ofNat 4 a ∧ bField (wordR op d a b) = BitVec.ofNat 4 b ∧
    lowField (wordR op d a b) = 0#16 := by
  have e := wordR_toNat h
  refine ⟨?_, ?_, ?_, ?_, ?_⟩
  · rw [opField_toNat, e]; omega
  · apply BitVec.eq_of_toNat_eq; rw [dField_toNat, e, BitVec.toNat_ofNat]; omega
  · apply BitVec.eq_of_toNat_eq; rw [aField_toNat, e, BitVec.toNat_ofNat]; omega
  · apply BitVec.eq_of_toNat_eq; rw [bField_toNat, e, BitVec.toNat_ofNat]; omega
  · apply BitVec.eq_of_toNat_eq; rw [lowField_toNat, e, BitVec.toNat_ofNat]; omega

/-- What a format-I word carries in each field. -/
theorem wordI_fields {op d a imm : Nat} (h : op < 16 ∧ d < 16 ∧ a < 16 ∧ imm < 1048576) :
    (opField (wordI op d a imm)).toNat = op ∧ dField (wordI op d a imm) = BitVec.ofNat 4 d ∧
    aField (wordI op d a imm) = BitVec.ofNat 4 a ∧ immField (wordI op d a imm) = imm := by
  have e := wordI_toNat h
  refine ⟨?_, ?_, ?_, ?_⟩
  · rw [opField_toNat, e]; omega
  · apply BitVec.eq_of_toNat_eq; rw [dField_toNat, e, BitVec.toNat_ofNat]; omega
  · apply BitVec.eq_of_toNat_eq; rw [aField_toNat, e, BitVec.toNat_ofNat]; omega
  · rw [immField_eq, e]; omega

/-- A word is the sum of its fields. -/
theorem word_of_fields (w : Word) :
    w.toNat = (opField w).toNat * 268435456 + (dField w).toNat * 16777216 + (aField w).toNat * 1048576 +
      (bField w).toNat * 65536 + (lowField w).toNat := by
  rw [opField_toNat, dField_toNat, aField_toNat, bField_toNat, lowField_toNat]; omega

theorem immField_of_fields (w : Word) : immField w = (bField w).toNat * 65536 + (lowField w).toNat := by
  rw [immField_eq, bField_toNat, lowField_toNat]; omega

/-! Register numbers in a four-bit field. -/

@[simp] theorem fReg_val (x : BitVec 4) : (fReg x).val = x.toNat := rfl

@[simp] theorem fReg_ofNat (d : FReg) : fReg (BitVec.ofNat 4 d) = d := by revert d; decide

@[simp] theorem bReg_ofNat (d : BReg) : bReg (BitVec.ofNat 4 d) = d := by revert d; decide

@[simp] theorem namesB_ofNat (d : BReg) : namesB (BitVec.ofNat 4 d) = true := by revert d; decide

theorem bReg_val (x : BitVec 4) (h : namesB x = true) : (bReg x).val = x.toNat := by revert h; revert x; decide

end Sys2Proof
end

