-- ==== Sys2Proof/Laws/State.lean ====
section
/-! SUPPORT. One lemma per field per update of the state, so that no later proof unfolds a record update; the same for
the updates of `STATUS`; and reading a register after writing one. -/

namespace Sys2Proof.Machine

/-! `writeF` -/

@[simp] theorem State.writeF_f (s : State) (r : FReg) (v : Fe) : (s.writeF r v).f = s.f.set r v := rfl
@[simp] theorem State.writeF_b (s : State) (r : FReg) (v : Fe) : (s.writeF r v).b = s.b := rfl
@[simp] theorem State.writeF_cmd (s : State) (r : FReg) (v : Fe) : (s.writeF r v).cmd = s.cmd := rfl
@[simp] theorem State.writeF_status (s : State) (r : FReg) (v : Fe) : (s.writeF r v).status = s.status := rfl
@[simp] theorem State.writeF_ctrl (s : State) (r : FReg) (v : Fe) : (s.writeF r v).ctrl = s.ctrl := rfl
@[simp] theorem State.writeF_finfo (s : State) (r : FReg) (v : Fe) : (s.writeF r v).finfo = s.finfo := rfl
@[simp] theorem State.writeF_host (s : State) (r : FReg) (v : Fe) : (s.writeF r v).host = s.host := rfl
@[simp] theorem State.writeF_responses (s : State) (r : FReg) (v : Fe) : (s.writeF r v).responses = s.responses := rfl
@[simp] theorem State.writeF_schedule (s : State) (r : FReg) (v : Fe) : (s.writeF r v).schedule = s.schedule := rfl

/-! `writeB` -/

@[simp] theorem State.writeB_f (s : State) (r : BReg) (v : Bytes32) : (s.writeB r v).f = s.f := rfl
@[simp] theorem State.writeB_b (s : State) (r : BReg) (v : Bytes32) : (s.writeB r v).b = s.b.set r v := rfl
@[simp] theorem State.writeB_cmd (s : State) (r : BReg) (v : Bytes32) : (s.writeB r v).cmd = s.cmd := rfl
@[simp] theorem State.writeB_status (s : State) (r : BReg) (v : Bytes32) : (s.writeB r v).status = s.status := rfl
@[simp] theorem State.writeB_ctrl (s : State) (r : BReg) (v : Bytes32) : (s.writeB r v).ctrl = s.ctrl := rfl
@[simp] theorem State.writeB_finfo (s : State) (r : BReg) (v : Bytes32) : (s.writeB r v).finfo = s.finfo := rfl
@[simp] theorem State.writeB_host (s : State) (r : BReg) (v : Bytes32) : (s.writeB r v).host = s.host := rfl
@[simp] theorem State.writeB_responses (s : State) (r : BReg) (v : Bytes32) : (s.writeB r v).responses = s.responses := rfl
@[simp] theorem State.writeB_schedule (s : State) (r : BReg) (v : Bytes32) : (s.writeB r v).schedule = s.schedule := rfl

/-! `accept` -/

@[simp] theorem State.accept_f (s : State) (w : Word) : (s.accept w).f = s.f := rfl
@[simp] theorem State.accept_b (s : State) (w : Word) : (s.accept w).b = s.b := rfl
@[simp] theorem State.accept_cmd (s : State) (w : Word) : (s.accept w).cmd = w := rfl
@[simp] theorem State.accept_status (s : State) (w : Word) : (s.accept w).status = s.status.accepted := rfl
@[simp] theorem State.accept_ctrl (s : State) (w : Word) : (s.accept w).ctrl = s.ctrl := rfl
@[simp] theorem State.accept_finfo (s : State) (w : Word) : (s.accept w).finfo = s.finfo := rfl
@[simp] theorem State.accept_host (s : State) (w : Word) : (s.accept w).host = s.host := rfl
@[simp] theorem State.accept_responses (s : State) (w : Word) : (s.accept w).responses = s.responses := rfl
@[simp] theorem State.accept_schedule (s : State) (w : Word) : (s.accept w).schedule = s.schedule := rfl

/-! `complete` -/

@[simp] theorem State.complete_f (s : State) : s.complete.f = s.f := rfl
@[simp] theorem State.complete_b (s : State) : s.complete.b = s.b := rfl
@[simp] theorem State.complete_cmd (s : State) : s.complete.cmd = s.cmd := rfl
@[simp] theorem State.complete_status (s : State) : s.complete.status = s.status.completed := rfl
@[simp] theorem State.complete_ctrl (s : State) : s.complete.ctrl = s.ctrl := rfl
@[simp] theorem State.complete_finfo (s : State) : s.complete.finfo = s.finfo := rfl
@[simp] theorem State.complete_host (s : State) : s.complete.host = s.host := rfl
@[simp] theorem State.complete_responses (s : State) : s.complete.responses = s.responses := rfl
@[simp] theorem State.complete_schedule (s : State) : s.complete.schedule = s.schedule := rfl

/-! `takeFault` -/

@[simp] theorem State.takeFault_f (s : State) (c : FaultCause) : (s.takeFault c).f = s.f := rfl
@[simp] theorem State.takeFault_b (s : State) (c : FaultCause) : (s.takeFault c).b = s.b := rfl
@[simp] theorem State.takeFault_cmd (s : State) (c : FaultCause) : (s.takeFault c).cmd = s.cmd := rfl
@[simp] theorem State.takeFault_status (s : State) (c : FaultCause) : (s.takeFault c).status = s.status.faulted c := rfl
@[simp] theorem State.takeFault_ctrl (s : State) (c : FaultCause) : (s.takeFault c).ctrl = s.ctrl := rfl
@[simp] theorem State.takeFault_finfo (s : State) (c : FaultCause) : (s.takeFault c).finfo = s.cmd := rfl
@[simp] theorem State.takeFault_host (s : State) (c : FaultCause) : (s.takeFault c).host = s.host := rfl
@[simp] theorem State.takeFault_responses (s : State) (c : FaultCause) : (s.takeFault c).responses = s.responses := rfl
@[simp] theorem State.takeFault_schedule (s : State) (c : FaultCause) : (s.takeFault c).schedule = s.schedule := rfl

/-! `resetUnit` -/

@[simp] theorem State.resetUnit_f (s : State) : s.resetUnit.f = State.reset.f := rfl
@[simp] theorem State.resetUnit_b (s : State) : s.resetUnit.b = State.reset.b := rfl
@[simp] theorem State.resetUnit_cmd (s : State) : s.resetUnit.cmd = 0 := rfl
@[simp] theorem State.resetUnit_status (s : State) : s.resetUnit.status = State.reset.status := rfl
@[simp] theorem State.resetUnit_ctrl (s : State) : s.resetUnit.ctrl = State.reset.ctrl := rfl
@[simp] theorem State.resetUnit_finfo (s : State) : s.resetUnit.finfo = 0 := rfl
@[simp] theorem State.resetUnit_host (s : State) : s.resetUnit.host = s.host := rfl
@[simp] theorem State.resetUnit_responses (s : State) : s.resetUnit.responses = s.responses := rfl
@[simp] theorem State.resetUnit_schedule (s : State) : s.resetUnit.schedule = s.schedule := rfl

/-! `taken` -/

@[simp] theorem State.taken_f (s : State) : s.taken.f = s.f := rfl
@[simp] theorem State.taken_b (s : State) : s.taken.b = s.b := rfl
@[simp] theorem State.taken_cmd (s : State) : s.taken.cmd = s.cmd := rfl
@[simp] theorem State.taken_status (s : State) : s.taken.status = s.status := rfl
@[simp] theorem State.taken_ctrl (s : State) : s.taken.ctrl = s.ctrl := rfl
@[simp] theorem State.taken_finfo (s : State) : s.taken.finfo = s.finfo := rfl
@[simp] theorem State.taken_host (s : State) : s.taken.host = s.host := rfl
@[simp] theorem State.taken_responses (s : State) : s.taken.responses = s.responses := rfl
@[simp] theorem State.taken_schedule (s : State) : s.taken.schedule = s.schedule.tail := rfl

/-! `writeStatus` -/

@[simp] theorem State.writeStatus_f (s : State) (v : Word) : (s.writeStatus v).f = s.f := rfl
@[simp] theorem State.writeStatus_b (s : State) (v : Word) : (s.writeStatus v).b = s.b := rfl
@[simp] theorem State.writeStatus_cmd (s : State) (v : Word) : (s.writeStatus v).cmd = s.cmd := rfl
@[simp] theorem State.writeStatus_status (s : State) (v : Word) : (s.writeStatus v).status = s.status.written v := rfl
@[simp] theorem State.writeStatus_ctrl (s : State) (v : Word) : (s.writeStatus v).ctrl = s.ctrl := rfl
@[simp] theorem State.writeStatus_finfo (s : State) (v : Word) : (s.writeStatus v).finfo = s.finfo := rfl
@[simp] theorem State.writeStatus_host (s : State) (v : Word) : (s.writeStatus v).host = s.host := rfl
@[simp] theorem State.writeStatus_responses (s : State) (v : Word) : (s.writeStatus v).responses = s.responses := rfl
@[simp] theorem State.writeStatus_schedule (s : State) (v : Word) : (s.writeStatus v).schedule = s.schedule := rfl

/-! `Status.accepted` -/

@[simp] theorem Status.accepted_busy (st : Status) : st.accepted.busy = true := rfl
@[simp] theorem Status.accepted_done (st : Status) : st.accepted.done = false := rfl
@[simp] theorem Status.accepted_fault (st : Status) : st.accepted.fault = st.fault := rfl
@[simp] theorem Status.accepted_cause (st : Status) : st.accepted.cause = st.cause := rfl

/-! `Status.completed` -/

@[simp] theorem Status.completed_busy (st : Status) : st.completed.busy = false := rfl
@[simp] theorem Status.completed_done (st : Status) : st.completed.done = true := rfl
@[simp] theorem Status.completed_fault (st : Status) : st.completed.fault = st.fault := rfl
@[simp] theorem Status.completed_cause (st : Status) : st.completed.cause = st.cause := rfl

/-! `Status.faulted` -/

@[simp] theorem Status.faulted_busy (c : FaultCause) (st : Status) : (st.faulted c).busy = false := rfl
@[simp] theorem Status.faulted_done (c : FaultCause) (st : Status) : (st.faulted c).done = st.done := rfl
@[simp] theorem Status.faulted_fault (c : FaultCause) (st : Status) : (st.faulted c).fault = true := rfl
@[simp] theorem Status.faulted_cause (c : FaultCause) (st : Status) : (st.faulted c).cause = c.code := rfl

/-! `Status.written` -/

@[simp] theorem Status.written_busy (v : Word) (st : Status) : (st.written v).busy = st.busy := rfl
@[simp] theorem Status.written_done (v : Word) (st : Status) : (st.written v).done = (st.done && !v.getLsbD 1) := rfl
@[simp] theorem Status.written_fault (v : Word) (st : Status) : (st.written v).fault = st.fault := rfl
@[simp] theorem Status.written_cause (v : Word) (st : Status) : (st.written v).cause = st.cause := rfl

/-! Registers: a read after a write of the same register gives the value written, of another register what was
there; writes of one file leave the other file alone. -/

theorem State.readF_writeF (s : State) (d r : FReg) (v : Fe) :
    (s.writeF d v).readF r = if r = d then v else s.readF r := by
  by_cases h : r = d
  · subst h; simp [State.readF]
  · simp [State.readF, h, Fin.val_inj, Ne.symm h]

theorem State.readB_writeB (s : State) (d r : BReg) (v : Bytes32) :
    (s.writeB d v).readB r = if r = d then v else s.readB r := by
  by_cases h : r = d
  · subst h; simp [State.readB]
  · simp [State.readB, h, Fin.val_inj, Ne.symm h]

@[simp] theorem State.readF_writeF_same (s : State) (d : FReg) (v : Fe) : (s.writeF d v).readF d = v := by
  simp [State.readF_writeF]

@[simp] theorem State.readB_writeB_same (s : State) (d : BReg) (v : Bytes32) : (s.writeB d v).readB d = v := by
  simp [State.readB_writeB]

@[simp] theorem State.readB_writeF (s : State) (d : FReg) (r : BReg) (v : Fe) :
    (s.writeF d v).readB r = s.readB r := rfl

@[simp] theorem State.readF_writeB (s : State) (d : BReg) (r : FReg) (v : Bytes32) :
    (s.writeB d v).readF r = s.readF r := rfl

@[simp] theorem State.accept_readF (s : State) (w : Word) (r : FReg) : (s.accept w).readF r = s.readF r := rfl
@[simp] theorem State.accept_readB (s : State) (w : Word) (r : BReg) : (s.accept w).readB r = s.readB r := rfl
@[simp] theorem State.complete_readF (s : State) (r : FReg) : s.complete.readF r = s.readF r := rfl
@[simp] theorem State.complete_readB (s : State) (r : BReg) : s.complete.readB r = s.readB r := rfl
@[simp] theorem State.takeFault_readF (s : State) (c : FaultCause) (r : FReg) : (s.takeFault c).readF r = s.readF r := rfl
@[simp] theorem State.takeFault_readB (s : State) (c : FaultCause) (r : BReg) : (s.takeFault c).readB r = s.readB r := rfl
@[simp] theorem State.taken_readF (s : State) (r : FReg) : s.taken.readF r = s.readF r := rfl
@[simp] theorem State.taken_readB (s : State) (r : BReg) : s.taken.readB r = s.readB r := rfl
@[simp] theorem State.writeStatus_readF (s : State) (v : Word) (r : FReg) : (s.writeStatus v).readF r = s.readF r := rfl
@[simp] theorem State.writeStatus_readB (s : State) (v : Word) (r : BReg) : (s.writeStatus v).readB r = s.readB r := rfl

@[simp] theorem State.reset_readF (r : FReg) : State.reset.readF r = Ten.replicate 0 := by
  simp [State.readF, State.reset]

@[simp] theorem State.reset_readB (r : BReg) : State.reset.readB r = 0 := by
  simp [State.readB, State.reset]

@[simp] theorem State.resetUnit_readF (s : State) (r : FReg) : s.resetUnit.readF r = Ten.replicate 0 :=
  State.reset_readF r

@[simp] theorem State.resetUnit_readB (s : State) (r : BReg) : s.resetUnit.readB r = 0 := State.reset_readB r

/-! Ten-place vectors. -/

@[simp] theorem Ten.get_map {α β : Type} (g : α → β) (t : Ten α) (i : Fin 10) : (t.map g).get i = g (t.get i) := by
  fin_cases i <;> rfl

@[simp] theorem Ten.get_zipWith {α β γ : Type} (g : α → β → γ) (t : Ten α) (u : Ten β) (i : Fin 10) :
    (Ten.zipWith g t u).get i = g (t.get i) (u.get i) := by
  fin_cases i <;> rfl

@[simp] theorem Ten.get_ofFn {α : Type} (g : Fin 10 → α) (i : Fin 10) : (Ten.ofFn g).get i = g i := by
  fin_cases i <;> rfl

@[simp] theorem Ten.get_replicate {α : Type} (v : α) (i : Fin 10) : (Ten.replicate v).get i = v := by
  fin_cases i <;> rfl

theorem Ten.get_set {α : Type} (t : Ten α) (i j : Fin 10) (v : α) :
    (t.set i v).get j = if j = i then v else t.get j := by
  fin_cases i <;> fin_cases j <;> rfl

theorem Ten.ext_get {α : Type} {t u : Ten α} (h : ∀ i, t.get i = u.get i) : t = u := by
  cases t; cases u
  simp only [Ten.mk.injEq]
  exact ⟨h 0, h 1, h 2, h 3, h 4, h 5, h 6, h 7, h 8, h 9⟩

theorem Ten.all_iff {α : Type} (q : α → Bool) (t : Ten α) : t.all q = true ↔ ∀ i, q (t.get i) = true := by
  constructor
  · intro h i
    simp only [Ten.all, Bool.and_eq_true] at h
    obtain ⟨⟨⟨⟨⟨⟨⟨⟨⟨h0, h1⟩, h2⟩, h3⟩, h4⟩, h5⟩, h6⟩, h7⟩, h8⟩, h9⟩ := h
    fin_cases i <;> assumption
  · intro h
    simp only [Ten.all, Bool.and_eq_true]
    exact ⟨⟨⟨⟨⟨⟨⟨⟨⟨h 0, h 1⟩, h 2⟩, h 3⟩, h 4⟩, h 5⟩, h 6⟩, h 7⟩, h 8⟩, h 9⟩

end Sys2Proof.Machine
end

