-- ==== Sys2Proof/Laws/Limbs.lean ====
section
/-! SUPPORT. Limb vectors as integers: storing is exact on int64, what `bounded` says, what `val` is, and that the
named forms are bounded. -/

namespace Sys2Proof.Machine

theorem fitsInt64_iff (x : Int) : fitsInt64 x = true ↔ -2 ^ 63 ≤ x ∧ x ≤ 2 ^ 63 - 1 := by
  simp only [fitsInt64, Bool.and_eq_true, decide_eq_true_eq]; omega

/-- Every stored limb is in int64 (R21). -/
theorem toInt_fits (l : Limb) : -2 ^ 63 ≤ l.toInt ∧ l.toInt ≤ 2 ^ 63 - 1 := by
  have h1 := BitVec.le_toInt l
  have h2 := BitVec.toInt_lt (x := l)
  constructor <;> omega

theorem toInt_ofInt_of_fits (x : Int) (h : -2 ^ 63 ≤ x ∧ x ≤ 2 ^ 63 - 1) : (BitVec.ofInt 64 x).toInt = x :=
  BitVec.toInt_ofInt_eq_self (by decide) (by omega) (by omega)

@[simp] theorem get_ints (f : Fe) (i : Fin 10) : (ints f).get i = (f.get i).toInt := by simp [ints]

/-- Storing integers that are in int64 loses nothing. -/
theorem ints_narrow (r : Ten Int) (h : ∀ i, -2 ^ 63 ≤ r.get i ∧ r.get i ≤ 2 ^ 63 - 1) : ints (narrow r) = r := by
  apply Ten.ext_get
  intro i
  rw [get_ints, narrow, Ten.get_map]
  exact toInt_ofInt_of_fits _ (h i)

theorem bounded_iff (f : Fe) (m : Nat) : bounded f m = true ↔ ∀ i, |(f.get i).toInt| ≤ (m : Int) := by
  rw [bounded, Ten.all_iff]
  refine forall_congr' fun i => ?_
  rw [decide_eq_true_eq, Int.abs_eq_natAbs]
  omega

theorem bounded_mono {f : Fe} {m m' : Nat} (h : bounded f m = true) (hm : m ≤ m') : bounded f m' = true := by
  rw [bounded_iff] at *
  exact fun i => (h i).trans (by exact_mod_cast hm)

/-- `val` as a linear form in the limbs (R10). -/
theorem valInts_eq (r : Ten Int) :
    valInts r = r.l0 + r.l1 * 2 ^ 26 + r.l2 * 2 ^ 51 + r.l3 * 2 ^ 77 + r.l4 * 2 ^ 102 + r.l5 * 2 ^ 128 +
      r.l6 * 2 ^ 153 + r.l7 * 2 ^ 179 + r.l8 * 2 ^ 204 + r.l9 * 2 ^ 230 := by
  simp [valInts, Ten.sum, Ten.zipWith, Config.E]

/-- Every carried-form vector is bounded by `2^26` (R120). -/
theorem CarriedForm.bounded {f : Fe} (h : CarriedForm f) : bounded f (2 ^ 26) = true := by
  obtain ⟨h0, h1, h2, h3, h4, h5, h6, h7, h8, h9⟩ := h
  rw [bounded_iff]
  intro i
  have : ((2 ^ 26 : Nat) : Int) = 2 ^ 26 := by norm_num
  rw [this, abs_le]
  fin_cases i <;> simp only [Ten.get] <;> constructor <;> omega

/-- The constants of the ladder are small. -/
theorem toInt_feConst (k : Nat) (h : k < 2 ^ 63) (i : Fin 10) :
    ((feConst k).get i).toInt = if i = 0 then (k : Int) else 0 := by
  have hk : (BitVec.ofNat 64 k).toInt = (k : Int) := by
    rw [BitVec.toInt_ofNat', Int.bmod_eq_of_le] <;> omega
  fin_cases i <;> first | exact hk | rfl

end Sys2Proof.Machine
end

