-- ==== Sys2Proof/Laws/Field.lean ====
section
/-! SUPPORT. The arithmetic functions, one lemma each that says what they answer on operands in contract: the raw sums
and the carry pass stay in int64, so storing is exact and the result is in carried form (R120). -/

namespace Sys2Proof.Machine

/-! The carry pass. -/

theorem hiPart_25 (t : Int) : hiPart 25 t = t / 33554432 := rfl
theorem hiPart_26 (t : Int) : hiPart 26 t = t / 67108864 := rfl
theorem loPart_25 (t : Int) : loPart 25 t = t % 33554432 := rfl
theorem loPart_26 (t : Int) : loPart 26 t = t % 67108864 := rfl

/-- A carry is small beside the limb it leaves, whichever the width. -/
theorem abs_add_hiPart_le {r t B : Int} (hr : |r| ≤ B) (ht : |t| ≤ B + B / 2 ^ 24 + 2) :
    |r + hiPart 25 t| ≤ B + B / 2 ^ 24 + 2 ∧ |r + hiPart 26 t| ≤ B + B / 2 ^ 24 + 2 := by
  rw [hiPart_25, hiPart_26, abs_le, abs_le]
  rw [abs_le] at hr ht
  constructor <;> constructor <;> omega

/-- Every `t[i]` of the pass stays close to the raw limbs. -/
theorem carryIn_abs_le (r : Ten Int) (B : Int) (h : ∀ i, |r.get i| ≤ B) (i : Fin 10) :
    |(carryIn r).get i| ≤ B + B / 2 ^ 24 + 2 := by
  have h0 : |(carryIn r).l0| ≤ B + B / 2 ^ 24 + 2 := by
    have := h 0
    have hB : 0 ≤ B := (abs_nonneg _).trans this
    exact this.trans (by omega)
  have h1 := (abs_add_hiPart_le (h 1) h0).2
  have h2 := (abs_add_hiPart_le (h 2) h1).1
  have h3 := (abs_add_hiPart_le (h 3) h2).2
  have h4 := (abs_add_hiPart_le (h 4) h3).1
  have h5 := (abs_add_hiPart_le (h 5) h4).2
  have h6 := (abs_add_hiPart_le (h 6) h5).1
  have h7 := (abs_add_hiPart_le (h 7) h6).2
  have h8 := (abs_add_hiPart_le (h 8) h7).1
  have h9 := (abs_add_hiPart_le (h 9) h8).2
  fin_cases i <;> assumption

/-- The carry out of limb 9 is about `r9 / 2^25`. -/
theorem carryOut_abs_le (r : Ten Int) (B B9 : Int) (h : ∀ i, |r.get i| ≤ B) (h9 : |r.l9| ≤ B9) :
    |carryOut r| ≤ (B9 + B / 2 ^ 24 + 2) / 2 ^ 25 + 1 := by
  have h8 : |(carryIn r).l8| ≤ B + B / 2 ^ 24 + 2 := carryIn_abs_le r B h 8
  have e : carryOut r = (r.l9 + (carryIn r).l8 / 67108864) / 33554432 := rfl
  rw [e, abs_le]
  rw [abs_le] at h8 h9
  constructor <;> omega

/-- The form of the result: every limb in its radix range but limb 1, which the closing step moves by less than `D`. -/
theorem feCarry_range (r : Ten Int) (D : Int) (hD : 19 * |carryOut r| + 2 ^ 26 ≤ D * 2 ^ 26) :
    (0 ≤ (feCarry r).l0 ∧ (feCarry r).l0 < 2 ^ 26) ∧ (-D ≤ (feCarry r).l1 ∧ (feCarry r).l1 < 2 ^ 25 + D) ∧
    (0 ≤ (feCarry r).l2 ∧ (feCarry r).l2 < 2 ^ 26) ∧ (0 ≤ (feCarry r).l3 ∧ (feCarry r).l3 < 2 ^ 25) ∧
    (0 ≤ (feCarry r).l4 ∧ (feCarry r).l4 < 2 ^ 26) ∧ (0 ≤ (feCarry r).l5 ∧ (feCarry r).l5 < 2 ^ 25) ∧
    (0 ≤ (feCarry r).l6 ∧ (feCarry r).l6 < 2 ^ 26) ∧ (0 ≤ (feCarry r).l7 ∧ (feCarry r).l7 < 2 ^ 25) ∧
    (0 ≤ (feCarry r).l8 ∧ (feCarry r).l8 < 2 ^ 26) ∧ (0 ≤ (feCarry r).l9 ∧ (feCarry r).l9 < 2 ^ 25) := by
  have e0 : (feCarry r).l0 = ((carryIn r).l0 % 67108864 + 19 * carryOut r) % 67108864 := rfl
  have e1 : (feCarry r).l1 =
      (carryIn r).l1 % 33554432 + ((carryIn r).l0 % 67108864 + 19 * carryOut r) / 67108864 := rfl
  have e2 : (feCarry r).l2 = (carryIn r).l2 % 67108864 := rfl
  have e3 : (feCarry r).l3 = (carryIn r).l3 % 33554432 := rfl
  have e4 : (feCarry r).l4 = (carryIn r).l4 % 67108864 := rfl
  have e5 : (feCarry r).l5 = (carryIn r).l5 % 33554432 := rfl
  have e6 : (feCarry r).l6 = (carryIn r).l6 % 67108864 := rfl
  have e7 : (feCarry r).l7 = (carryIn r).l7 % 33554432 := rfl
  have e8 : (feCarry r).l8 = (carryIn r).l8 % 67108864 := rfl
  have e9 : (feCarry r).l9 = (carryIn r).l9 % 33554432 := rfl
  have h1 := neg_abs_le (carryOut r)
  have h2 := le_abs_self (carryOut r)
  refine ⟨⟨?_, ?_⟩, ⟨?_, ?_⟩, ⟨?_, ?_⟩, ⟨?_, ?_⟩, ⟨?_, ?_⟩, ⟨?_, ?_⟩, ⟨?_, ?_⟩, ⟨?_, ?_⟩, ⟨?_, ?_⟩, ?_, ?_⟩ <;>
    omega

/-- A pass whose carry out is below `2^35 + 2^13` can be stored exactly and leaves carried form (R17, R120). -/
theorem feCarry_stored (r : Ten Int) (hC : |carryOut r| ≤ 2 ^ 35 + 2 ^ 13) :
    ints (narrow (feCarry r)) = feCarry r ∧ CarriedForm (narrow (feCarry r)) := by
  obtain ⟨h0, h1, h2, h3, h4, h5, h6, h7, h8, h9⟩ := feCarry_range r (2 ^ 14 - 1) (by omega)
  have e : ints (narrow (feCarry r)) = feCarry r := by
    apply ints_narrow
    intro i
    fin_cases i <;> simp only [Ten.get] <;> constructor <;> omega
  refine ⟨e, ?_⟩
  have g : ∀ i, ((narrow (feCarry r)).get i).toInt = (feCarry r).get i := fun i => by rw [← get_ints, e]
  have g0 := g 0; have g1 := g 1; have g2 := g 2; have g3 := g 3; have g4 := g 4
  have g5 := g 5; have g6 := g 6; have g7 := g 7; have g8 := g 8; have g9 := g 9
  simp only [Ten.get] at g0 g1 g2 g3 g4 g5 g6 g7 g8 g9
  rw [CarriedForm, g0, g1, g2, g3, g4, g5, g6, g7, g8, g9]
  exact ⟨h0, ⟨by omega, by omega⟩, h2, h3, h4, h5, h6, h7, h8, h9⟩

/-! Raw sums. -/

theorem abs_mul_le_of_bounds {x y : Int} (hx : |x| ≤ 2 ^ 27) (hy : |y| ≤ 2 ^ 27) :
    -2 ^ 54 ≤ x * y ∧ x * y ≤ 2 ^ 54 := by
  have h : |x * y| ≤ 2 ^ 27 * 2 ^ 27 := by
    rw [abs_mul]; exact mul_le_mul hx hy (abs_nonneg _) (by norm_num)
  rw [abs_le] at h
  constructor <;> omega

/-- The raw sums of operands bounded by `2^27`, with the coefficient sums of R115. -/
theorem rawSums_abs_le (a b : Ten Int) (ha : ∀ i, |a.get i| ≤ 2 ^ 27) (hb : ∀ i, |b.get i| ≤ 2 ^ 27) :
    (∀ k, |(rawSums a b).get k| ≤ 267 * 2 ^ 54) ∧ |(rawSums a b).l9| ≤ 10 * 2 ^ 54 := by
  have p : ∀ i j, -2 ^ 54 ≤ a.get i * b.get j ∧ a.get i * b.get j ≤ 2 ^ 54 :=
    fun i j => abs_mul_le_of_bounds (ha i) (hb j)
  obtain ⟨a0, a1, a2, a3, a4, a5, a6, a7, a8, a9⟩ := a
  obtain ⟨b0, b1, b2, b3, b4, b5, b6, b7, b8, b9⟩ := b
  have row : ∀ i, _ := fun i => And.intro (p i 0) (And.intro (p i 1) (And.intro (p i 2) (And.intro (p i 3)
    (And.intro (p i 4) (And.intro (p i 5) (And.intro (p i 6) (And.intro (p i 7) (And.intro (p i 8) (p i 9)))))))))
  have q0 := row 0; have q1 := row 1; have q2 := row 2; have q3 := row 3; have q4 := row 4
  have q5 := row 5; have q6 := row 6; have q7 := row 7; have q8 := row 8; have q9 := row 9
  simp only [Ten.get] at q0 q1 q2 q3 q4 q5 q6 q7 q8 q9
  clear ha hb p row
  have h9 : |(rawSums ⟨a0, a1, a2, a3, a4, a5, a6, a7, a8, a9⟩ ⟨b0, b1, b2, b3, b4, b5, b6, b7, b8, b9⟩).l9|
      ≤ 10 * 2 ^ 54 := by
    simp only [rawSums]; rw [abs_le]; constructor <;> linarith
  refine ⟨fun k => ?_, h9⟩
  fin_cases k <;> simp only [rawSums, Ten.get] <;> rw [abs_le] <;> constructor <;> linarith

/-! The functions. -/

/-- ADD's function, in contract: exactly the sums of the limbs (R111). -/
theorem feAdd_spec (a b : Fe) (h : ∀ i, -2 ^ 63 ≤ (a.get i).toInt + (b.get i).toInt ∧
    (a.get i).toInt + (b.get i).toInt ≤ 2 ^ 63 - 1) :
    ∃ r, feAdd a b = .ok r ∧ ∀ i, (r.get i).toInt = (a.get i).toInt + (b.get i).toInt := by
  have hs : ∀ i, (Ten.zipWith (fun x y => x + y) (ints a) (ints b)).get i = (a.get i).toInt + (b.get i).toInt := by
    intro i; simp
  have hf : (Ten.zipWith (fun x y => x + y) (ints a) (ints b)).all fitsInt64 = true := by
    rw [Ten.all_iff]; intro i; rw [fitsInt64_iff, hs]; exact h i
  refine ⟨_, by rw [feAdd, ifFits, if_pos hf], fun i => ?_⟩
  rw [← get_ints, ints_narrow _ (fun i => by rw [hs]; exact h i), hs]

/-- SUB's function, in contract: exactly the differences of the limbs (R112). -/
theorem feSub_spec (a b : Fe) (h : ∀ i, -2 ^ 63 ≤ (a.get i).toInt - (b.get i).toInt ∧
    (a.get i).toInt - (b.get i).toInt ≤ 2 ^ 63 - 1) :
    ∃ r, feSub a b = .ok r ∧ ∀ i, (r.get i).toInt = (a.get i).toInt - (b.get i).toInt := by
  have hs : ∀ i, (Ten.zipWith (fun x y => x - y) (ints a) (ints b)).get i = (a.get i).toInt - (b.get i).toInt := by
    intro i; simp
  have hf : (Ten.zipWith (fun x y => x - y) (ints a) (ints b)).all fitsInt64 = true := by
    rw [Ten.all_iff]; intro i; rw [fitsInt64_iff, hs]; exact h i
  refine ⟨_, by rw [feSub, ifFits, if_pos hf], fun i => ?_⟩
  rw [← get_ints, ints_narrow _ (fun i => by rw [hs]; exact h i), hs]

/-- Outside its contract ADD's or SUB's function fails with `LIMB_OVERFLOW` (R111, R112, R222). -/
theorem ifFits_error (s : Ten Int) (i : Fin 10) (h : s.get i < -2 ^ 63 ∨ 2 ^ 63 ≤ s.get i) :
    ifFits s = .error .limbOverflow := by
  have : ¬ s.all fitsInt64 = true := by
    rw [Ten.all_iff]; intro hall; have := hall i; rw [fitsInt64_iff] at this; omega
  rw [ifFits, if_neg this]

/-- Sums and differences of vectors bounded by `2^26` exist and are bounded by `2^27` (R120). -/
theorem feAdd_bounded (a b : Fe) (ha : bounded a (2 ^ 26) = true) (hb : bounded b (2 ^ 26) = true) :
    ∃ r, feAdd a b = .ok r ∧ bounded r (2 ^ 27) = true := by
  rw [bounded_iff] at ha hb
  simp only [abs_le, Nat.cast_pow, Nat.cast_ofNat] at ha hb
  obtain ⟨r, hr, hl⟩ := feAdd_spec a b (fun i => by have := ha i; have := hb i; omega)
  refine ⟨r, hr, (bounded_iff _ _).2 fun i => ?_⟩
  rw [hl i, abs_le]
  have := ha i; have := hb i
  push_cast
  constructor <;> omega

theorem feSub_bounded (a b : Fe) (ha : bounded a (2 ^ 26) = true) (hb : bounded b (2 ^ 26) = true) :
    ∃ r, feSub a b = .ok r ∧ bounded r (2 ^ 27) = true := by
  rw [bounded_iff] at ha hb
  simp only [abs_le, Nat.cast_pow, Nat.cast_ofNat] at ha hb
  obtain ⟨r, hr, hl⟩ := feSub_spec a b (fun i => by have := ha i; have := hb i; omega)
  refine ⟨r, hr, (bounded_iff _ _).2 fun i => ?_⟩
  rw [hl i, abs_le]
  have := ha i; have := hb i
  push_cast
  constructor <;> omega

/-- MUL's function, in contract: the carry pass of the raw sums, in carried form (R117, R120). -/
theorem feMul_spec (a b : Fe) (ha : bounded a (2 ^ 27) = true) (hb : bounded b (2 ^ 27) = true) :
    ∃ r, feMul a b = .ok r ∧ ints r = feCarry (rawSums (ints a) (ints b)) ∧ CarriedForm r := by
  have ha' := (bounded_iff _ _).1 ha
  have hb' := (bounded_iff _ _).1 hb
  push_cast at ha' hb'
  obtain ⟨hr, h9⟩ := rawSums_abs_le (ints a) (ints b) (by simpa using ha') (by simpa using hb')
  have hc := carryOut_abs_le _ _ _ hr h9
  have hs := feCarry_stored (rawSums (ints a) (ints b)) (hc.trans (by norm_num))
  have hm : (bounded a Config.mMul && bounded b Config.mMul) = true := by
    rw [Bool.and_eq_true]; exact ⟨ha, hb⟩
  exact ⟨_, by rw [feMul, if_pos hm], hs.1, hs.2⟩

/-- MULC's function, in contract: the carry pass of the scaled limbs, in carried form (R119, R120). -/
theorem feMulc_spec (a : Fe) (k : Nat) (hk : immOk k = true) (ha : bounded a (2 ^ 40) = true) :
    ∃ r, feMulc a k = .ok r ∧ ints r = feCarry ((ints a).map fun x => x * (k : Int)) ∧ CarriedForm r := by
  have ha' := (bounded_iff _ _).1 ha
  push_cast at ha'
  have hk' : (k : Int) < 2 ^ 20 := by simp only [immOk, decide_eq_true_eq] at hk; exact_mod_cast hk
  have hr : ∀ i, |((ints a).map fun x => x * (k : Int)).get i| ≤ 2 ^ 60 := by
    intro i
    rw [Ten.get_map, get_ints, abs_mul, Nat.abs_cast]
    calc |(a.get i).toInt| * k ≤ 2 ^ 40 * 2 ^ 20 :=
          mul_le_mul (ha' i) hk'.le (Int.natCast_nonneg k) (by norm_num)
      _ = 2 ^ 60 := by norm_num
  have hc := carryOut_abs_le _ _ _ hr (hr 9)
  have hs := feCarry_stored ((ints a).map fun x => x * (k : Int)) (hc.trans (by norm_num))
  exact ⟨_, by rw [feMulc, if_pos (show bounded a Config.mMulc = true from ha)], hs.1, hs.2⟩

/-- Outside their contract the products fail with `OPERAND_BOUND` (R221). -/
theorem not_bounded_of_limb (f : Fe) (m : Nat) (i : Fin 10) (h : (m : Int) < |(f.get i).toInt|) :
    bounded f m = false := by
  rw [Bool.eq_false_iff, Ne, bounded_iff]
  exact fun hall => absurd (hall i) (by omega)

end Sys2Proof.Machine
end

