-- ==== Sys2Proof/Laws/PerInstr.lean ====
section
/-! SUPPORT. Per instruction: the word of a well-formed command matches its own row of the opcode table (R85, R86). -/

namespace Sys2Proof.Laws.OwnRow

/-- `encode i & mask = match` for the row of `i`. -/
def Statement (i : Instr) : Prop := i.wf = true → encode i &&& i.row.mask = i.row.value

/-- A mask is applied to the fields above bit `k` and to the rest apart. -/
theorem and_split (hi lo k mask : Nat) (hlo : lo < 2 ^ k) :
    (hi * 2 ^ k + lo) &&& mask = (hi &&& mask / 2 ^ k) * 2 ^ k + (lo &&& mask % 2 ^ k) := by
  have h1 : (hi * 2 ^ k + lo) / 2 ^ k = hi := by
    rw [Nat.mul_comm, Nat.mul_add_div (Nat.two_pow_pos k), Nat.div_eq_of_lt hlo, Nat.add_zero]
  have h2 : (hi * 2 ^ k + lo) % 2 ^ k = lo := by
    rw [Nat.mul_comm, Nat.mul_add_mod, Nat.mod_eq_of_lt hlo]
  have hd := Nat.and_div_two_pow (a := hi * 2 ^ k + lo) (b := mask) (n := k)
  have hm := Nat.and_mod_two_pow (a := hi * 2 ^ k + lo) (b := mask) (n := k)
  rw [h1] at hd
  rw [h2] at hm
  rw [← hd, ← hm, Nat.div_add_mod']

/-- The same for a 32-bit word whose value is known by its fields. -/
theorem word_and (n hi lo k : Nat) (mask value : Word) (hn : n = hi * 2 ^ k + lo) (hlo : lo < 2 ^ k)
    (hw : n < 2 ^ 32) (h1 : (hi &&& mask.toNat / 2 ^ k) = value.toNat / 2 ^ k)
    (h2 : (lo &&& mask.toNat % 2 ^ k) = value.toNat % 2 ^ k) : BitVec.ofNat 32 n &&& mask = value := by
  apply BitVec.eq_of_toNat_eq
  rw [BitVec.toNat_and, BitVec.toNat_ofNat, Nat.mod_eq_of_lt hw, hn, and_split _ _ _ _ hlo, h1, h2, Nat.div_add_mod']

/-- Format R: the sixteen bits of `op`, `d`, `a`, `b` decide. -/
theorem wordR_and (op d a b : Nat) (mask value : Word) (h : op < 16 ∧ d < 16 ∧ a < 16 ∧ b < 16)
    (h1 : (((op * 16 + d) * 16 + a) * 16 + b &&& mask.toNat / 2 ^ 16) = value.toNat / 2 ^ 16)
    (h2 : value.toNat % 2 ^ 16 = 0) : wordR op d a b &&& mask = value :=
  word_and _ (((op * 16 + d) * 16 + a) * 16 + b) 0 16 mask value (by omega) (by decide) (by omega) h1
    (by rw [Nat.zero_and, h2])

/-- Format I: the twelve bits of `op`, `d`, `a` decide, and the mask is blind to `imm`. -/
theorem wordI_and (op d a imm : Nat) (mask value : Word) (h : op < 16 ∧ d < 16 ∧ a < 16) (hi : imm < 2 ^ 20)
    (h1 : ((op * 16 + d) * 16 + a &&& mask.toNat / 2 ^ 20) = value.toNat / 2 ^ 20)
    (h2 : mask.toNat % 2 ^ 20 = 0 ∧ value.toNat % 2 ^ 20 = 0) : wordI op d a imm &&& mask = value :=
  word_and _ ((op * 16 + d) * 16 + a) imm 20 mask value (by omega) hi (by omega) h1
    (by rw [h2.1, h2.2, Nat.and_zero])

theorem nop : Statement .nop := fun _ => by decide

theorem setc (d : FReg) (imm : Nat) : Statement (.setc d imm) := fun h => wordI_and 1 d 0 imm 0xF0F00000#32 0x10000000#32 ⟨by decide, d.isLt, by decide⟩ (by simpa [Instr.wf, immOk] using h)
    (by clear h; revert d; decide) (by decide)

theorem cpy (d a : FReg) : Statement (.cpy d a) := fun _ => wordR_and 2 d a 0 0xF00FFFFF#32 0x20000000#32 ⟨by decide, d.isLt, a.isLt, by decide⟩ (by revert d a; decide) (by decide)

theorem sqr (d a : FReg) : Statement (.sqr d a) := fun _ => wordR_and 6 d a 0 0xF00FFFFF#32 0x60000000#32 ⟨by decide, d.isLt, a.isLt, by decide⟩ (by revert d a; decide) (by decide)

theorem inv (d a : FReg) : Statement (.inv d a) := fun _ => wordR_and 8 d a 0 0xF00FFFFF#32 0x80000000#32 ⟨by decide, d.isLt, a.isLt, by decide⟩ (by revert d a; decide) (by decide)

theorem mulc (d a : FReg) (imm : Nat) : Statement (.mulc d a imm) := fun h => wordI_and 7 d a imm 0xF0000000#32 0x70000000#32 ⟨by decide, d.isLt, a.isLt⟩ (by simpa [Instr.wf, immOk] using h)
    (by clear h; revert d a; decide) (by decide)

/-- The three-source commands: the mask keeps only `op`. -/
theorem op_only (op : Nat) (d a b : FReg) (h : op < 16) :
    (((op * 16 + d.val) * 16 + a.val) * 16 + b.val &&& 0xF000) = op * 4096 := by
  have e : ((op * 16 + d.val) * 16 + a.val) * 16 + b.val = op * 2 ^ 12 + (d.val * 256 + a.val * 16 + b.val) := by omega
  rw [e, and_split _ _ _ _ (by omega)]
  have h1 : (op &&& 0xF000 / 2 ^ 12) = op := by
    rw [show 0xF000 / 2 ^ 12 = 2 ^ 4 - 1 by decide, Nat.and_two_pow_sub_one_eq_mod, Nat.mod_eq_of_lt (by omega)]
  rw [h1, show 0xF000 % 2 ^ 12 = 0 by decide, Nat.and_zero, Nat.add_zero]
  rfl

theorem add (d a b : FReg) : Statement (.add d a b) := fun _ => wordR_and 3 d a b 0xF000FFFF#32 0x30000000#32 ⟨by decide, d.isLt, a.isLt, b.isLt⟩ (op_only 3 d a b (by decide)) (by decide)

theorem sub (d a b : FReg) : Statement (.sub d a b) := fun _ => wordR_and 4 d a b 0xF000FFFF#32 0x40000000#32 ⟨by decide, d.isLt, a.isLt, b.isLt⟩ (op_only 4 d a b (by decide)) (by decide)

theorem mul (d a b : FReg) : Statement (.mul d a b) := fun _ => wordR_and 5 d a b 0xF000FFFF#32 0x50000000#32 ⟨by decide, d.isLt, a.isLt, b.isLt⟩ (op_only 5 d a b (by decide)) (by decide)

theorem smul (d a : FReg) (b : BReg) : Statement (.smul d a b) := fun _ => wordR_and 9 d a b 0xF00CFFFF#32 0x90000000#32 ⟨by decide, d.isLt, a.isLt, by omega⟩ (by revert d a b; decide) (by decide)

theorem unpack (d : FReg) (a : BReg) : Statement (.unpack d a) := fun _ => wordR_and 10 d a 0 0xF0CFFFFF#32 0xA0000000#32 ⟨by decide, d.isLt, by omega, by decide⟩ (by revert d a; decide) (by decide)

theorem pack (d : BReg) (a : FReg) : Statement (.pack d a) := fun _ => wordR_and 11 d a 0 0xFC0FFFFF#32 0xB0000000#32 ⟨by decide, by omega, a.isLt, by decide⟩ (by revert d a; decide) (by decide)

theorem clamp (d a : BReg) : Statement (.clamp d a) := fun _ => wordR_and 12 d a 0 0xFCCFFFFF#32 0xC0000000#32 ⟨by decide, by omega, by omega, by decide⟩ (by revert d a; decide) (by decide)

end Sys2Proof.Laws.OwnRow
end

