-- ==== Sys2Proof/Laws/Prime.lean ====
section
/-! SUPPORT. `p = 2^255 − 19` is prime (R3), by Lucas's test down a chain of factors: each number here has an element
whose order is the number less one. -/

namespace Sys2Proof.Laws

/-- `a^e mod n` for `e < 2^256`, by squaring. -/
def powMod (n a : Nat) : Nat → Nat → Nat
  | 0, _ => 1 % n
  | bits + 1, e => powMod n a bits (e / 2) * powMod n a bits (e / 2) % n * a ^ (e % 2) % n

theorem powMod_eq (n a bits e : Nat) (h : e < 2 ^ bits) : powMod n a bits e = a ^ e % n := by
  induction bits generalizing e with
  | zero => simp [powMod, show e = 0 by omega]
  | succ bits ih =>
    rw [powMod, ih (e / 2) (by omega), ← Nat.mul_mod, ← pow_add, Nat.mod_mul_mod, ← pow_add]
    congr 2
    omega

/-- Lucas's test with the factors of `n − 1` given as a list: `a` has order `n − 1` modulo `n`. -/
theorem prime_of_order (n a : Nat) (factors : List (Nat × Nat)) (hn : 1 < n ∧ n < 2 ^ 256)
    (hf : (factors.map fun x => x.1 ^ x.2).prod = n - 1) (hp : ∀ x ∈ factors, x.1.Prime)
    (h1 : powMod n a 256 (n - 1) = 1) (hq : ∀ x ∈ factors, powMod n a 256 ((n - 1) / x.1) ≠ 1) : n.Prime := by
  have key : ∀ k < 2 ^ 256, ((a : ZMod n) ^ k = 1 ↔ powMod n a 256 k = 1) := fun k hk => by
    rw [← Nat.cast_pow, ← Nat.cast_one, ZMod.natCast_eq_natCast_iff', Nat.mod_eq_of_lt hn.1, powMod_eq _ _ _ _ hk]
  refine lucas_primality n a ((key _ (by omega)).2 h1) fun q hqp hd => ?_
  rw [← hf, hqp.prime.dvd_prod_iff] at hd
  obtain ⟨y, hy, hyd⟩ := hd
  obtain ⟨x, hx, rfl⟩ := List.mem_map.1 hy
  rw [(Nat.prime_dvd_prime_iff_eq hqp (hp x hx)).1 (hqp.dvd_of_dvd_pow hyd), Ne,
    key _ ((Nat.div_le_self _ _).trans_lt (by omega))]
  exact hq x hx

theorem prime_d17 : Nat.Prime 31757755568855353 := by
  refine prime_of_order _ 10 [(2, 3), (3, 1), (31, 1), (107, 1), (223, 1), (4153, 1), (430751, 1)] (by norm_num) (by norm_num) ?_ (by decide +kernel) (by decide +kernel)
  simp only [List.mem_cons, List.not_mem_nil, or_false]
  rintro x (rfl | rfl | rfl | rfl | rfl | rfl | rfl)
  · norm_num
  · norm_num
  · norm_num
  · norm_num
  · norm_num
  · norm_num
  · norm_num

theorem prime_2773320623 : Nat.Prime 2773320623 := by
  refine prime_of_order _ 5 [(2, 1), (2437, 1), (569003, 1)] (by norm_num) (by norm_num) ?_ (by decide +kernel) (by decide +kernel)
  simp only [List.mem_cons, List.not_mem_nil, or_false]
  rintro x (rfl | rfl | rfl)
  · norm_num
  · norm_num
  · norm_num

theorem prime_72106336199 : Nat.Prime 72106336199 := by
  refine prime_of_order _ 7 [(2, 1), (13, 1), (2773320623, 1)] (by norm_num) (by norm_num) ?_ (by decide +kernel) (by decide +kernel)
  simp only [List.mem_cons, List.not_mem_nil, or_false]
  rintro x (rfl | rfl | rfl)
  · norm_num
  · norm_num
  · exact prime_2773320623

theorem prime_8574133 : Nat.Prime 8574133 := by
  refine prime_of_order _ 2 [(2, 2), (3, 1), (7, 1), (103, 1), (991, 1)] (by norm_num) (by norm_num) ?_ (by decide +kernel) (by decide +kernel)
  simp only [List.mem_cons, List.not_mem_nil, or_false]
  rintro x (rfl | rfl | rfl | rfl | rfl)
  · norm_num
  · norm_num
  · norm_num
  · norm_num
  · norm_num

theorem prime_d16 : Nat.Prime 1919519569386763 := by
  refine prime_of_order _ 2 [(2, 1), (3, 1), (7, 1), (19, 1), (47, 2), (127, 1), (8574133, 1)] (by norm_num) (by norm_num) ?_ (by decide +kernel) (by decide +kernel)
  simp only [List.mem_cons, List.not_mem_nil, or_false]
  rintro x (rfl | rfl | rfl | rfl | rfl | rfl | rfl)
  · norm_num
  · norm_num
  · norm_num
  · norm_num
  · norm_num
  · norm_num
  · exact prime_8574133

theorem prime_d35 : Nat.Prime 75445702479781427272750846543864801 := by
  refine prime_of_order _ 7 [(2, 5), (3, 2), (5, 2), (75707, 1), (72106336199, 1), (1919519569386763, 1)] (by norm_num) (by norm_num) ?_ (by decide +kernel) (by decide +kernel)
  simp only [List.mem_cons, List.not_mem_nil, or_false]
  rintro x (rfl | rfl | rfl | rfl | rfl | rfl)
  · norm_num
  · norm_num
  · norm_num
  · norm_num
  · exact prime_72106336199
  · exact prime_d16

theorem prime_1923133 : Nat.Prime 1923133 := by
  refine prime_of_order _ 2 [(2, 2), (3, 1), (43, 1), (3727, 1)] (by norm_num) (by norm_num) ?_ (by decide +kernel) (by decide +kernel)
  simp only [List.mem_cons, List.not_mem_nil, or_false]
  rintro x (rfl | rfl | rfl | rfl)
  · norm_num
  · norm_num
  · norm_num
  · norm_num

theorem prime_d71 : Nat.Prime 74058212732561358302231226437062788676166966415465897661863160754340907 := by
  refine prime_of_order _ 2 [(2, 1), (3, 1), (353, 1), (57467, 1), (132049, 1), (1923133, 1), (31757755568855353, 1), (75445702479781427272750846543864801, 1)] (by norm_num) (by norm_num) ?_ (by decide +kernel) (by decide +kernel)
  simp only [List.mem_cons, List.not_mem_nil, or_false]
  rintro x (rfl | rfl | rfl | rfl | rfl | rfl | rfl | rfl)
  · norm_num
  · norm_num
  · norm_num
  · norm_num
  · norm_num
  · exact prime_1923133
  · exact prime_d17
  · exact prime_d35

theorem prime_p : Config.p.Prime := by
  rw [show Config.p = 57896044618658097711785492504343953926634992332820282019728792003956564819949 by norm_num [Config.p]]
  refine prime_of_order _ 2 [(2, 2), (3, 1), (65147, 1), (74058212732561358302231226437062788676166966415465897661863160754340907, 1)] (by norm_num) (by norm_num) ?_ (by decide +kernel) (by decide +kernel)
  simp only [List.mem_cons, List.not_mem_nil, or_false]
  rintro x (rfl | rfl | rfl | rfl)
  · norm_num
  · norm_num
  · norm_num
  · exact prime_d71

end Sys2Proof.Laws
end

