-- ==== Sys2Proof/Laws/Step.lean ====
section
/-! SUPPORT. What a command, a host transaction and a step can do, each said once; invariants are derived from these
without unfolding `exec` or `step` again. -/

namespace Sys2Proof.Machine

@[simp] theorem State.commitF_ok (s : State) (d : FReg) (v : Fe) :
    s.commitF d (.ok v) = (s.writeF d v).complete := rfl

@[simp] theorem State.commitF_error (s : State) (d : FReg) (c : FaultCause) :
    s.commitF d (.error c) = s.takeFault c := rfl

@[simp] theorem State.commitB_ok (s : State) (d : BReg) (v : Bytes32) :
    s.commitB d (.ok v) = (s.writeB d v).complete := rfl

@[simp] theorem State.commitB_error (s : State) (d : BReg) (c : FaultCause) :
    s.commitB d (.error c) = s.takeFault c := rfl

/-- The end of a command: it completes having written nothing, or one F register, or one B register; or it faults. -/
inductive CommandEnd (s : State) : State → Prop where
  | nothing : CommandEnd s s.complete
  | wroteF (d : FReg) (v : Fe) : CommandEnd s (s.writeF d v).complete
  | wroteB (d : BReg) (v : Bytes32) : CommandEnd s (s.writeB d v).complete
  | fault (c : FaultCause) : CommandEnd s (s.takeFault c)

theorem commandEnd_commitF (s : State) (d : FReg) (r : Result Fe) : CommandEnd s (s.commitF d r) := by
  cases r with
  | ok v => exact .wroteF d v
  | error c => exact .fault c

theorem commandEnd_commitB (s : State) (d : BReg) (r : Result Bytes32) : CommandEnd s (s.commitB d r) := by
  cases r with
  | ok v => exact .wroteB d v
  | error c => exact .fault c

/-- Every command answers a next state, in one of the four ways (R217). -/
theorem exec_ends (i : Instr) (s : State) : ∃ t, exec i s = .next t ∧ CommandEnd s t := by
  cases i with
  | nop => exact ⟨_, rfl, .nothing⟩
  | setc d imm => exact ⟨_, rfl, commandEnd_commitF s d _⟩
  | cpy d a => exact ⟨_, rfl, commandEnd_commitF s d _⟩
  | add d a b => exact ⟨_, rfl, commandEnd_commitF s d _⟩
  | sub d a b => exact ⟨_, rfl, commandEnd_commitF s d _⟩
  | mul d a b => exact ⟨_, rfl, commandEnd_commitF s d _⟩
  | sqr d a => exact ⟨_, rfl, commandEnd_commitF s d _⟩
  | mulc d a imm => exact ⟨_, rfl, commandEnd_commitF s d _⟩
  | inv d a => exact ⟨_, rfl, commandEnd_commitF s d _⟩
  | smul d a b => exact ⟨_, rfl, commandEnd_commitF s d _⟩
  | unpack d a => exact ⟨_, rfl, commandEnd_commitF s d _⟩
  | pack d a => exact ⟨_, rfl, commandEnd_commitB s d _⟩
  | clamp d a => exact ⟨_, rfl, commandEnd_commitB s d _⟩

/-- The complete step: nothing when idle, else the end of a command (an illegal word ends in a fault). -/
theorem completeStep_ends (s : State) :
    ∃ t, completeStep s = .next t ∧ ((s.status.busy = false ∧ t = s) ∨ (s.status.busy = true ∧ CommandEnd s t)) := by
  rw [completeStep]
  cases hb : s.status.busy with
  | false => exact ⟨s, rfl, .inl ⟨rfl, rfl⟩⟩
  | true =>
    cases hd : decode s.cmd with
    | ok i =>
      obtain ⟨t, ht, he⟩ := exec_ends i s
      exact ⟨t, by simpa using ht, .inr ⟨rfl, he⟩⟩
    | error e => exact ⟨s.takeFault .illegalCmd, by simp, .inr ⟨rfl, .fault _⟩⟩

/-- A completed write of `F[d]` is `WroteF`; the other registers and the port are as they were. -/
theorem wroteF_complete (s : State) (d : FReg) (v : Fe) : WroteF d s (s.writeF d v).complete where
  completed := ⟨rfl, rfl, rfl, rfl, rfl, rfl, rfl, ⟨rfl, rfl, rfl⟩⟩
  otherF r h := by simp [State.readF_writeF, h]
  allB r := by simp

theorem wroteB_complete (s : State) (d : BReg) (v : Bytes32) : WroteB d s (s.writeB d v).complete where
  completed := ⟨rfl, rfl, rfl, rfl, rfl, rfl, rfl, ⟨rfl, rfl, rfl⟩⟩
  allF r := by simp
  otherB r h := by simp [State.readB_writeB, h]

/-- The fault entry is `Faulted`. -/
theorem faulted_takeFault (s : State) (c : FaultCause) : Faulted c s (s.takeFault c) :=
  ⟨rfl, rfl, rfl, rfl, rfl, rfl, rfl, fun _ => rfl, fun _ => rfl, ⟨rfl, rfl, rfl⟩⟩

/-- A transaction leaves the unit alone, or is a write of an implemented word. -/
theorem perform_cases (s : State) (x : Txn) :
    (s.perform x).1 = s ∨
      ∃ off v l, x = .wr .w32 off v ∧ locate off = some l ∧ s.perform x = (s.writeLoc v l, .ok) := by
  cases x with
  | rd width off => cases h : target width off <;> simp [State.perform, h]
  | wr width off v =>
    cases h : target width off with
    | none => simp [State.perform, h]
    | some l =>
      cases width with
      | w32 => exact .inr ⟨off, v, l, rfl, h, by simp [State.perform, h]⟩
      | w8 => cases h
      | w16 => cases h
      | w64 => cases h

/-- The host's step: nothing, or the transaction at the head of its list, which is not held. -/
theorem hostStep_cases (s : State) :
    s.hostStep = s ∨ ∃ x rest, s.host = x :: rest ∧ s.holds x = false ∧ s.hostStep = s.doTxn x rest := by
  rw [State.hostStep]
  cases hh : s.host with
  | nil => exact .inl rfl
  | cons x rest =>
    cases hx : s.holds x with
    | true => exact .inl (by simp [hx])
    | false => exact .inr ⟨x, rest, rfl, hx, by simp [hx]⟩

@[simp] theorem State.doTxn_schedule (s : State) (x : Txn) (rest : List Txn) :
    (s.doTxn x rest).schedule = s.schedule := by
  rcases perform_cases { s with host := rest } x with h | ⟨off, v, l, rfl, -, h⟩
  · simp [State.doTxn, h]
  · cases l <;> simp only [State.doTxn, h, State.writeLoc, State.writeCmd, State.writeStatus, State.writeCtrl] <;>
      first | rfl | (split <;> rfl)

@[simp] theorem State.doTxn_host (s : State) (x : Txn) (rest : List Txn) : (s.doTxn x rest).host = rest := by
  rcases perform_cases { s with host := rest } x with h | ⟨off, v, l, rfl, -, h⟩
  · simp [State.doTxn, h]
  · cases l <;> simp only [State.doTxn, h, State.writeLoc, State.writeCmd, State.writeStatus, State.writeCtrl] <;>
      first | rfl | (split <;> rfl)

/-- A step: the unit's complete step, the host's step, or the reset input, each after the turn is taken. -/
theorem step_cases {s t : State} (h : step s = .next t) :
    (s.turn = .unit ∧ completeStep s.taken = .next t) ∨ (s.turn = .host ∧ t = s.taken.hostStep) ∨
      (s.turn = .resetLine ∧ t = s.taken.resetUnit) := by
  rw [step] at h
  cases ht : s.turn with
  | unit => rw [ht] at h; exact .inl ⟨rfl, h⟩
  | host => rw [ht] at h; exact .inr (.inl ⟨rfl, by cases h; rfl⟩)
  | resetLine => rw [ht] at h; exact .inr (.inr ⟨rfl, by cases h; rfl⟩)

/-- Every step answers a next state: the machine never stops (R215, R234). -/
theorem step_next (s : State) : ∃ t, step s = .next t := by
  rw [step]
  cases s.turn with
  | unit => obtain ⟨t, h, -⟩ := completeStep_ends s.taken; exact ⟨t, h⟩
  | host => exact ⟨_, rfl⟩
  | resetLine => exact ⟨_, rfl⟩

end Sys2Proof.Machine
end

