-- ==== Sys2Proof/Tests/Slice0.lean ====
section
/-! SUPPORT. The model's own tests. Expected words, limbs and status values are those of the spec (R87, R88 and
95_test_vectors.md; the id of the vector stands at each test), never the model's own answer. After them, for every
statement with hypotheses, a witness that meets them. -/

set_option Elab.async false

namespace Sys2Proof.Tests

open Sys2Proof.Machine

/-! ### Small states -/

/-- Ten limbs written as integers. -/
def vec (a0 a1 a2 a3 a4 a5 a6 a7 a8 a9 : Int) : Fe := narrow ⟨a0, a1, a2, a3, a4, a5, a6, a7, a8, a9⟩

/-- `(k, 0, …, 0)`. -/
def lone (k : Int) : Fe := vec k 0 0 0 0 0 0 0 0 0

/-- All ten limbs the same. -/
def same (k : Int) : Fe := narrow (Ten.replicate k)

/-- The strict limbs of `p` with `k` added to limb 0 (`PL` of section 95, at `k = 0`). -/
def pl (k : Int) : Fe :=
  vec (67108845 + k) 33554431 67108863 33554431 67108863 33554431 67108863 33554431 67108863 33554431

/-- `(1, 2, …, 10)`. -/
def upTo10 : Fe := vec 1 2 3 4 5 6 7 8 9 10

/-- The low `8k` bits of a number with their bytes in reverse order. -/
def swapBytes : Nat → Nat → Nat
  | 0, _ => 0
  | k + 1, n => n % 256 * 256 ^ k + swapBytes k (n / 256)

/-- A 32-byte value from its 64 hex digits, byte 0 first. -/
def hex (digits : Nat) : Bytes32 := bytes32 (swapBytes 32 digits)

/-- Reset with `F1 = a`, `F2 = b`. -/
def fState (a b : Fe) : State := (State.reset.writeF 1 a).writeF 2 b

/-- Reset with `B1 = b`. -/
def bState (b : Bytes32) : State := State.reset.writeB 1 b

/-- The state after command `i`, accepted and completed. -/
def after (i : Instr) (s : State) : Option State :=
  match exec i (s.accept (encode i)) with
  | .next t => some t
  | .fault _ => none
  | .refused _ => none

/-- `F3` after a command. -/
def f3 (i : Instr) (s : State) : Option Fe := (after i s).map fun t => t.readF 3

/-- `B2` after a command. -/
def b2 (i : Instr) (s : State) : Option Bytes32 := (after i s).map fun t => t.readB 2

/-- `STATUS`, `FINFO` and `F3` after a command. -/
def fate (i : Instr) (s : State) : Option (Word × Word × Fe) :=
  (after i s).map fun t => (t.readLoc .status, t.readLoc .finfo, t.readF 3)

/-! ### Well-formedness: the checks refuse ill-formed terms (R82) -/

theorem test_wf_setc_immediate_too_large : (Instr.setc 0 1048576).wf = false := by decide
theorem test_wf_mulc_immediate_too_large : (Instr.mulc 0 0 1048576).wf = false := by decide
theorem test_wf_largest_immediate : (Instr.setc 15 1048575).wf = true := by decide

/-! ### Decoding: words of V-ENC and R87 written out, one per command -/

theorem test_decode_nop : decode 0x00000000#32 = .ok .nop := by decide +kernel
theorem test_decode_setc : decode 0x1F0FFFFF#32 = .ok (.setc 15 1048575) := by decide +kernel
theorem test_decode_cpy : decode 0x24100000#32 = .ok (.cpy 4 1) := by decide +kernel
theorem test_decode_add : decode 0x36450000#32 = .ok (.add 6 4 5) := by decide +kernel
theorem test_decode_sub : decode 0x42010000#32 = .ok (.sub 2 0 1) := by decide +kernel
theorem test_decode_mul : decode 0x53120000#32 = .ok (.mul 3 1 2) := by decide +kernel
theorem test_decode_sqr : decode 0x62100000#32 = .ok (.sqr 2 1) := by decide +kernel
theorem test_decode_mulc : decode 0x7371DB41#32 = .ok (.mulc 3 7 121665) := by decide +kernel
theorem test_decode_inv : decode 0x82100000#32 = .ok (.inv 2 1) := by decide +kernel
theorem test_decode_smul : decode 0x9FE30000#32 = .ok (.smul 15 14 3) := by decide +kernel
theorem test_decode_unpack : decode 0xA1100000#32 = .ok (.unpack 1 1) := by decide +kernel
theorem test_decode_pack : decode 0xB1000000#32 = .ok (.pack 1 0) := by decide +kernel
theorem test_decode_clamp : decode 0xC3300000#32 = .ok (.clamp 3 3) := by decide +kernel
theorem test_decode_reserved_opcode : decode 0xE1230000#32 = .error .reservedOpcode := by decide +kernel
theorem test_decode_must_be_zero : decode 0x90180000#32 = .error .mustBeZero := by decide +kernel
theorem test_decodeTableWord : decodeTableWord 32 0x53120000 = some (.mul 3 1 2) := by decide +kernel

/-! ### One step of each command -/

/-- V-ST-1. -/
theorem test_nop : fate .nop (fState (lone 7) (lone 8)) = some (0x00000002#32, 0#32, lone 0) := by decide +kernel

/-- V-SETC-2. -/
theorem test_setc : f3 (.setc 3 1048575) State.reset = some (lone 1048575) := by decide +kernel

/-- V-CPY-1. -/
theorem test_cpy :
    fate (.cpy 3 1) (fState (vec (-4) (2 ^ 62) 0 0 0 0 0 0 0 (-2 ^ 63)) (lone 0)) =
      some (0x00000002#32, 0#32, vec (-4) (2 ^ 62) 0 0 0 0 0 0 0 (-2 ^ 63)) := by decide +kernel

/-- V-ADD-2. -/
theorem test_add :
    f3 (.add 3 1 2) (fState (pl 0) (pl 0)) =
      some (vec 134217690 67108862 134217726 67108862 134217726 67108862 134217726 67108862 134217726 67108862) := by
  decide +kernel

/-- V-ADD-3. -/
theorem test_add_overflow :
    fate (.add 3 1 2) (fState (vec 0 0 0 (2 ^ 63 - 1) 0 0 0 0 0 0) (vec 0 0 0 1 0 0 0 0 0 0)) =
      some (0x00000034#32, 0x33120000#32, lone 0) := by decide +kernel

/-- V-SUB-1: the minuend is the first source. -/
theorem test_sub : f3 (.sub 3 1 2) (fState (lone 5) (lone 9)) = some (lone (-4)) := by decide +kernel

/-- V-SUB-3. -/
theorem test_sub_overflow :
    fate (.sub 3 1 2) (fState (lone (-2 ^ 63)) (lone 1)) = some (0x00000034#32, 0x43120000#32, lone 0) := by
  decide +kernel

/-- V-MUL-7. -/
theorem test_mul :
    f3 (.mul 3 1 2) (fState (same (2 ^ 27)) (same (-2 ^ 27))) =
      some (vec 67101093 (-1521) 67106728 33553199 67107159 33553487 67107591 33553775 67108023 33554063) := by
  decide +kernel

/-- V-MUL-10. -/
theorem test_mul_bound :
    fate (.mul 3 1 2) (fState (lone 1) (vec 0 0 0 0 0 0 0 (-2 ^ 27 - 1) 0 0)) =
      some (0x00000024#32, 0x53120000#32, lone 0) := by decide +kernel

/-- V-SQR-1. -/
theorem test_sqr :
    f3 (.sqr 3 1) (fState upTo10 (lone 0)) = some (vec 7677 5628 9343 6100 9437 5452 7743 3540 4045 220) := by
  decide +kernel

/-- P3: the square of `2^27 + 1` held in one limb. -/
theorem test_sqr_bound :
    fate (.sqr 3 1) (fState (lone 134217729) (lone 0)) = some (0x00000024#32, 0x63100000#32, lone 0) := by
  decide +kernel

/-- V-MULC-4: the carry rounds toward minus infinity. -/
theorem test_mulc_floor :
    f3 (.mulc 3 1 1) (fState (lone (-2 ^ 26 - 1)) (lone 0)) =
      some (vec 67108844 33554430 67108863 33554431 67108863 33554431 67108863 33554431 67108863 33554431) := by
  decide +kernel

/-- V-MULC-8. -/
theorem test_mulc_largest :
    f3 (.mulc 3 1 1048575) (fState (same (2 ^ 40)) (lone 0)) =
      some (vec 66495981 33547775 67076607 33538559 67076607 33538559 67076607 33538559 67076607 33538559) := by
  decide +kernel

/-- V-INV-2. -/
theorem test_inv :
    f3 (.inv 3 1) (fState (lone 2) (lone 0)) =
      some (vec 67108855 33554431 67108863 33554431 67108863 33554431 67108863 33554431 67108863 16777215) := by
  decide +kernel

/-- V-INV-9. -/
theorem test_inv_bound :
    fate (.inv 3 1) (fState (lone (2 ^ 27 + 1)) (lone 0)) = some (0x00000024#32, 0x83100000#32, lone 0) := by
  decide +kernel

/-- V-STEP-4: three steps of the ladder SMUL runs, for the bits 0, 1, 0 (here bits 2 to 0 of the scalar 2). -/
theorem test_ladder :
    (ladder (bytes32 2) (lone 9) 3 (slots0 (lone 9))).toOption =
      some ⟨⟨vec 0 25394752 13467289 0 0 0 0 0 0 0, vec 0 30593224 17157907 4944 0 0 0 0 0 0⟩,
        ⟨vec 0 19152896 64142495 20524852 53250324 1 0 0 0 0,
          vec 0 24788992 30334364 16513290 26800603 1308 0 0 0 0⟩⟩ := by decide +kernel

/-- V-SMUL-11. -/
theorem test_smul_bound :
    fate (.smul 3 1 0) (fState (lone (2 ^ 26 + 1)) (lone 0)) = some (0x00000024#32, 0x93100000#32, lone 0) := by
  decide +kernel

/-- P5: UNPACK of the peer's public key. -/
theorem test_unpack :
    f3 (.unpack 3 1) (bState (hex 0x4a428feb8a8310ef88a6172cc994e3f2e734cb0790081118dec8e0eac5222238)) =
      some (vec 59720266 2155194 13704674 4808893 63671891 30094567 8669187 18596610 6204940 14715019) := by
  decide +kernel

/-- V-PACK-12. -/
theorem test_pack :
    b2 (.pack 2 1) (fState (vec 0 0 0 0 0 0 0 0 0 (-1)) (lone 0)) =
      some (hex 0xedffffffffffffffffffffffffffffffffffffffffffffffffffffffbfffff7f) := by decide +kernel

/-- V-PACK-14. -/
theorem test_pack_range :
    fate (.pack 2 1) (fState (vec 0 0 0 0 0 0 0 0 0 (2 ^ 26)) (lone 0)) =
      some (0x00000044#32, 0xB2100000#32, lone 0) := by decide +kernel

/-- V-CLAMP-4. -/
theorem test_clamp :
    b2 (.clamp 2 1) (bState (hex 0xff11111111111111111111111111111111111111111111111111111111111180)) =
      some (hex 0xf811111111111111111111111111111111111111111111111111111111111140) := by decide +kernel

/-! ### The window and the step -/

/-- V-WIN-3: the low half of limb 0 of `F2` is written, the high half keeps its value. -/
theorem test_window_half :
    let s := State.reset.writeLoc 0xFFFFFFFC#32 (.fHalf 2 0 false)
    (s.readF 2).l0 = 4294967292#64 ∧ locate 0x900#12 = some (.fHalf 2 0 false) ∧
      locate 0xFCC#12 = some (.fHalf 15 9 true) := by decide +kernel

/-- V-ST-3: an illegal word faults with code 1. -/
theorem test_illegal :
    (match completeStep (State.reset.accept 0xD0000000#32) with
      | .next t => some (t.readLoc .status, t.readLoc .finfo)
      | .fault _ => none
      | .refused _ => none) = some (0x00000014#32, 0xD0000000#32) := by decide +kernel

/-- `withFetchWord` makes the next step run the word: SETC F1, 9 from reset (P1). -/
theorem test_withFetchWord :
    (match step (State.reset.withFetchWord 32 0x11000009) with
      | .next t => some (t.readF 1, t.readLoc .status)
      | .fault _ => none
      | .refused _ => none) = some (lone 9, 0x00000002#32) := by decide +kernel

/-! ### Witnesses: for every statement with hypotheses, inputs that meet them, at the edges of their ranges -/

/-- A command in progress, with `F1` and `F2` given. -/
def busyWith (a b : Fe) : State := (fState a b).accept 0x53120000#32

/-- A unit that has faulted on an illegal word. -/
def faulted : State := (State.reset.accept 0xD0000000#32).takeFault .illegalCmd

/-- A host with the given transactions. -/
def hostOf (s : State) (l : List Txn) : State := { s with host := l }

theorem busyWith_inv (a b : Fe) : (busyWith a b).Inv ∧ (busyWith a b).status.busy = true :=
  ⟨⟨by simp [busyWith, fState, State.reset], by simp [busyWith, fState], by simp [busyWith, fState, State.reset],
    by simp [busyWith, fState, State.reset]⟩, rfl⟩

theorem witness_DecodeEncode : (Instr.mulc 15 15 1048575).wf = true ∧ (Instr.setc 0 0).wf = true := by decide

theorem witness_EncodeDecode : decode 0x7FFFFFFF#32 = .ok (.mulc 15 15 1048575) := by decide +kernel

/-- Both clauses of DecodeMatchesTable that have a hypothesis, at a row's only word and at the last legal word of the
last row. -/
theorem witness_DecodeMatchesTable :
    decode 0xC3300000#32 = .ok (.clamp 3 3) ∧
      0x00000000#32 &&& Instr.nop.row.mask = Instr.nop.row.value ∧
      0xC3300000#32 &&& (Instr.clamp 0 0).row.mask = (Instr.clamp 0 0).row.value := by decide +kernel

theorem witness_StepRunsDecodedCommand :
    let s := State.reset.withFetchWord 32 0x53120000
    s.turn = .unit ∧ s.status.busy = true ∧ decode s.cmd = .ok (.mul 3 1 2) := by decide +kernel

theorem witness_IllegalWordFaults :
    State.reset.Inv ∧ State.reset.status.fault = false ∧
      (∀ i : Instr, 0xD0000000#32 &&& i.row.mask ≠ i.row.value) ∧
      ∀ i : Instr, 0x00000001#32 &&& i.row.mask ≠ i.row.value :=
  ⟨by decide, rfl, fun i => by cases i <;> simp only [Instr.row] <;> decide +kernel,
    fun i => by cases i <;> simp only [Instr.row] <;> decide +kernel⟩

theorem witness_FaultEntry :
    let s := busyWith (lone (2 ^ 63 - 1)) (lone 1)
    s.Inv ∧ s.status.busy = true ∧ ∃ t, exec (.add 3 1 2) s = .next t ∧ t.status.fault = true :=
  ⟨(busyWith_inv _ _).1, rfl, _, rfl, by decide +kernel⟩

/-- Two different states that agree on what MUL reads. -/
theorem witness_CommandReadsAndWrites :
    let s := busyWith (lone 3) (lone 5)
    let s' := s.writeF 9 (lone 1)
    s ≠ s' ∧ (∀ r, readsF (.mul 3 1 2) r → s'.readF r = s.readF r) ∧
      (∀ r, readsB (.mul 3 1 2) r → s'.readB r = s.readB r) ∧ s'.status = s.status ∧ s.status.fault = false ∧
      ∃ t, exec (.mul 3 1 2) s = .next t ∧ t.status.fault = false := by
  refine ⟨by decide +kernel, fun r h => ?_, fun _ _ => rfl, rfl, rfl, _, rfl, by decide +kernel⟩
  rcases h with rfl | rfl <;> decide +kernel

theorem witness_SetcCompletes : immOk 0 = true ∧ immOk 1048575 = true := by decide

/-- The sums reach both ends of int64. -/
theorem witness_AddCompletes :
    let s := fState (vec (2 ^ 63 - 1) (-2 ^ 63) 0 0 0 0 0 0 0 0) (lone 0)
    ∀ i, -2 ^ 63 ≤ ((s.readF 1).get i).toInt + ((s.readF 2).get i).toInt ∧
      ((s.readF 1).get i).toInt + ((s.readF 2).get i).toInt ≤ 2 ^ 63 - 1 := by decide +kernel

theorem witness_SubCompletes :
    let s := fState (vec (2 ^ 63 - 1) (-2 ^ 63) (-1) 0 0 0 0 0 0 0) (vec 0 0 (-2 ^ 63) 0 0 0 0 0 0 0)
    ∀ i, -2 ^ 63 ≤ ((s.readF 1).get i).toInt - ((s.readF 2).get i).toInt ∧
      ((s.readF 1).get i).toInt - ((s.readF 2).get i).toInt ≤ 2 ^ 63 - 1 := by decide +kernel

/-- One below and one above int64, for the sum and for the difference. -/
theorem witness_LimbOverflowFaults :
    (∀ a b, (busyWith a b).Inv ∧ (busyWith a b).status.busy = true) ∧
    (let s := busyWith (vec (2 ^ 63 - 1) (-2 ^ 63) 0 0 0 0 0 0 0 0) (vec 1 (-1) 0 0 0 0 0 0 0 0)
     ((s.readF 1).get 0).toInt + ((s.readF 2).get 0).toInt = 2 ^ 63 ∧
     ((s.readF 1).get 1).toInt + ((s.readF 2).get 1).toInt = -2 ^ 63 - 1) ∧
    (let s := busyWith (vec (2 ^ 63 - 1) (-2 ^ 63) 0 0 0 0 0 0 0 0) (vec (-1) 1 0 0 0 0 0 0 0 0)
     ((s.readF 1).get 0).toInt - ((s.readF 2).get 0).toInt = 2 ^ 63 ∧
     ((s.readF 1).get 1).toInt - ((s.readF 2).get 1).toInt = -2 ^ 63 - 1) :=
  ⟨busyWith_inv, by decide +kernel, by decide +kernel⟩

/-- Both ends of the operand bound `2^27` (MUL, SQR, INV, and the two statements about their values). -/
theorem witness_MulCompletes :
    let s := fState (same (2 ^ 27)) (same (-2 ^ 27))
    (∀ i, |((s.readF 1).get i).toInt| ≤ 2 ^ 27) ∧ ∀ i, |((s.readF 2).get i).toInt| ≤ 2 ^ 27 := by decide +kernel

theorem witness_SqrCompletes :
    let s := fState (same (-2 ^ 27)) (lone 0)
    ∀ i, |((s.readF 1).get i).toInt| ≤ 2 ^ 27 := by decide +kernel

theorem witness_MulcCompletes :
    let s := fState (same (2 ^ 40)) (same (-2 ^ 40))
    immOk 1048575 = true ∧ immOk 0 = true ∧ (∀ i, |((s.readF 1).get i).toInt| ≤ 2 ^ 40) ∧
      ∀ i, |((s.readF 2).get i).toInt| ≤ 2 ^ 40 := by decide +kernel

/-- One above each bound, on either side. -/
theorem witness_OperandBoundFaults :
    (∀ a b, (busyWith a b).Inv ∧ (busyWith a b).status.busy = true) ∧
    (let s := busyWith (vec (2 ^ 27 + 1) (2 ^ 40 + 1) (2 ^ 26 + 1) (-2 ^ 27 - 1) (-2 ^ 40 - 1) (-2 ^ 26 - 1) 0 0 0 0)
       (lone 0)
     2 ^ 27 < |((s.readF 1).get 0).toInt| ∧ 2 ^ 40 < |((s.readF 1).get 1).toInt| ∧
     2 ^ 26 < |((s.readF 1).get 2).toInt| ∧ 2 ^ 27 < |((s.readF 1).get 3).toInt| ∧
     2 ^ 40 < |((s.readF 1).get 4).toInt| ∧ 2 ^ 26 < |((s.readF 1).get 5).toInt|) :=
  ⟨busyWith_inv, by decide +kernel⟩

theorem witness_ProductsNeverOverflow :
    (∀ i, |((same (2 ^ 27)).get i).toInt| ≤ 2 ^ 27) ∧ (∀ i, |((same (-2 ^ 27)).get i).toInt| ≤ 2 ^ 27) ∧
      immOk 1048575 = true ∧ (∀ i, |((same (2 ^ 40)).get i).toInt| ≤ 2 ^ 40) ∧
      CarriedForm (vec (2 ^ 26 - 1) (2 ^ 25 + 2 ^ 14 - 1) 0 0 0 0 0 0 0 0) ∧
      CarriedForm (vec 0 (1 - 2 ^ 14) 0 0 0 0 0 0 0 0) := by decide +kernel

/-- Each of the five commands completes without fault on some state. -/
theorem witness_ValueLaws :
    let s := busyWith (lone 3) (lone 5)
    immOk 1048575 = true ∧
    ∀ i ∈ [Instr.add 3 1 2, .sub 3 1 2, .mul 3 1 2, .sqr 3 1, .mulc 3 1 1048575],
      ∃ t, exec i s = .next t ∧ t.status.fault = false := by
  refine ⟨by decide, fun i h => ?_⟩
  simp only [List.mem_cons, List.not_mem_nil, or_false] at h
  rcases h with rfl | rfl | rfl | rfl | rfl <;> exact ⟨_, rfl, by decide +kernel⟩

theorem witness_InvCompletes :
    let s := fState (same (2 ^ 27)) (lone 0)
    ∀ i, |((s.readF 1).get i).toInt| ≤ 2 ^ 27 := by decide +kernel

theorem witness_InvValueLaw :
    let s := fState (same (-2 ^ 27)) (lone 0)
    ∀ i, |((s.readF 1).get i).toInt| ≤ 2 ^ 27 := by decide +kernel

/-- The zero vector, and a vector that is not zero of field value 0: the limbs of `p` (V-INV-5). -/
theorem witness_InvOfZero :
    (∀ i, ((fState (lone 0) (lone 0)).readF 1).get i = 0) ∧
    (∀ i, |(((fState (pl 0) (lone 0)).readF 1).get i).toInt| ≤ 2 ^ 27) ∧
    fieldValue ((fState (pl 0) (lone 0)).readF 1) = 0 := by
  refine ⟨by decide +kernel, by decide +kernel, ?_⟩
  rw [show (fState (pl 0) (lone 0)).readF 1 = pl 0 by decide +kernel, fieldValue,
    show val (pl 0) = (Config.p : Int) by decide +kernel, Int.cast_natCast, ZMod.natCast_self]

theorem witness_InverseLaw : (∀ i, |((lone 2).get i).toInt| ≤ 2 ^ 27) ∧ fieldValue (lone 2) ≠ 0 := by
  refine ⟨by decide +kernel, ?_⟩
  rw [fieldValue, show val (lone 2) = ((2 : Nat) : Int) by decide +kernel, Int.cast_natCast, Ne,
    ZMod.natCast_eq_zero_iff]
  decide +kernel

theorem witness_SmulCompletes :
    let s := fState (same (2 ^ 26)) (lone 0)
    ∀ i, |((s.readF 1).get i).toInt| ≤ 2 ^ 26 := by decide +kernel

theorem witness_SmulRefinesFieldLadder :
    let s := fState (same (-2 ^ 26)) (lone 0)
    ∀ i, |((s.readF 1).get i).toInt| ≤ 2 ^ 26 := by decide +kernel

theorem witness_SmulOfZeroScalar :
    let s := fState (same (2 ^ 26)) (lone 0)
    (∀ i, |((s.readF 1).get i).toInt| ≤ 2 ^ 26) ∧ le256 (s.readB 0) = 0 := by decide +kernel

theorem witness_HostLadderStep :
    let s := ((((State.reset.writeF 1 (same (2 ^ 26))).writeF 2 (same (-2 ^ 26))).writeF 3 (lone 1)).writeF 4
      (same (2 ^ 26))).writeF 5 (lone 0)
    ∀ r ∈ ([1, 2, 3, 4, 5] : List FReg), ∀ i, |((s.readF r).get i).toInt| ≤ 2 ^ 26 := by decide +kernel

/-- Both ends of the range of PACK: `−p` (V-PACK-4) and `2p − 1` (V-PACK-15). -/
theorem witness_PackCompletes :
    let s := fState (vec (-67108845) (-33554431) (-67108863) (-33554431) (-67108863) (-33554431) (-67108863) (-33554431)
      (-67108863) (-33554431)) (vec 134217689 67108862 134217726 67108862 134217726 67108862 134217726 67108862 134217726
      67108862)
    val (s.readF 1) = -(2 ^ 255 - 19) ∧ val (s.readF 2) = 2 * (2 ^ 255 - 19) - 1 := by decide +kernel

/-- One below and one above: `−p − 1` (V-PACK-6) and `2p` (V-PACK-16). -/
theorem witness_PackRangeFaults :
    (∀ a b, (busyWith a b).Inv ∧ (busyWith a b).status.busy = true) ∧
    (let s := busyWith (vec (-67108846) (-33554431) (-67108863) (-33554431) (-67108863) (-33554431) (-67108863)
      (-33554431) (-67108863) (-33554431)) (vec 134217690 67108862 134217726 67108862 134217726 67108862 134217726
      67108862 134217726 67108862)
     val (s.readF 1) < -(2 ^ 255 - 19) ∧ 2 * (2 ^ 255 - 19) ≤ val (s.readF 2)) :=
  ⟨busyWith_inv, by decide +kernel⟩

/-- The edges `p − 1`, `p`, `2p − 1`, `2p` of the first part; the second at `PL` (V-PACK-1). -/
theorem witness_PackUnpackRoundTrip :
    le256 (bytes32 (2 ^ 255 - 20)) = 2 ^ 255 - 20 ∧ le256 (bytes32 (2 ^ 255 - 19)) = 2 ^ 255 - 19 ∧
      le256 (bytes32 (2 ^ 256 - 39)) < 2 * (2 ^ 255 - 19) ∧ 2 * (2 ^ 255 - 19) ≤ le256 (bytes32 (2 ^ 256 - 38)) ∧
      (fePack (pl 0)).toOption = some 0 := by decide +kernel

/-- An implemented offset at each end of the three ranges, and one offset for each reason to name no word, at the edges
of the reserved ranges. -/
theorem witness_WindowMap :
    locate 0x010#12 = some .id ∧ locate 0x100#12 = some (.bWord 0 0) ∧ locate 0x17C#12 = some (.bWord 3 7) ∧
      locate 0x800#12 = some (.fHalf 0 0 false) ∧ locate 0x84C#12 = some (.fHalf 0 9 true) ∧
      locate 0x802#12 = none ∧ locate 0x014#12 = none ∧ locate 0x0FC#12 = none ∧ locate 0x180#12 = none ∧
      locate 0x7FC#12 = none ∧ locate 0x850#12 = none ∧ locate 0xFFC#12 = none := by decide +kernel

/-- The ends of the B window and of the reserved part of a slot. -/
theorem witness_BWindowWord :
    0x100 ≤ (0x100#12).toNat ∧ (0x17C#12).toNat < 0x180 ∧ (0x17C#12).toNat % 4 = 0 := by decide +kernel

theorem witness_FWindowHalf :
    0x800 + 0x80 * (15 : FReg).val + 0x50 ≤ (0xFD0#12).toNat ∧ (0xFFF#12).toNat ≤ 0x800 + 0x80 * (15 : FReg).val + 0x7F ∧
      ((14 : FReg), (9 : Fin 10)) ≠ (15, 9) := by decide +kernel

theorem witness_WindowReadsLastWrite :
    (Loc.bWord 3 7).isData = true ∧ (Loc.fHalf 15 9 true).isData = true ∧ Loc.status ≠ Loc.fHalf 15 9 true := by
  decide

/-- A read of a control register while busy, and a read of the data window while idle. -/
theorem witness_HostReads :
    (let s := hostOf (busyWith (lone 0) (lone 0)) [.rd .w32 0x004#12]
     locate 0x004#12 = some .status ∧ (s.status.busy = true → Loc.status.isData = false) ∧
       s.host = .rd .w32 0x004#12 :: []) ∧
    (let s := hostOf State.reset [.rd .w32 0xFCC#12]
     locate 0xFCC#12 = some (.fHalf 15 9 true) ∧ (s.status.busy = true → (Loc.fHalf 15 9 true).isData = false) ∧
       s.host = .rd .w32 0xFCC#12 :: []) := by decide +kernel

/-- Idle, and idle in the faulted state. -/
theorem witness_HostWritesData :
    locate 0x17C#12 = some (.bWord 3 7) ∧ (Loc.bWord 3 7).isData = true ∧
      (hostOf State.reset [.wr .w32 0x17C#12 5#32]).status.busy = false ∧
      (hostOf faulted [.wr .w32 0x17C#12 5#32]).status.busy = false ∧
      (hostOf faulted [.wr .w32 0x17C#12 5#32]).host = .wr .w32 0x17C#12 5#32 :: [] := by decide +kernel

theorem witness_ErrChangesNothing :
    Width.w8 ≠ .w32 ∧ (0x802#12).toNat % 4 ≠ 0 ∧ 0x014 ≤ (0x014#12).toNat ∧ (0x0FC#12).toNat ≤ 0x0FF ∧
      0x180 ≤ (0x180#12).toNat ∧ (0x7FC#12).toNat ≤ 0x7FF ∧ 0x50 ≤ ((0x850#12).toNat - 0x800) % 0x80 ∧
      0x50 ≤ ((0xFFC#12).toNat - 0x800) % 0x80 ∧
      (hostOf State.reset [.rd .w8 0x000#12]).host = .rd .w8 0x000#12 :: [] ∧
      (hostOf State.reset [.wr .w32 0x802#12 0#32]).host = .wr .w32 0x802#12 0#32 :: [] := by decide +kernel

/-- For each of the five clauses, its transaction at the head of the host's list. -/
theorem witness_HoldWhileBusy :
    let s := busyWith (lone 0) (lone 0)
    s.Inv ∧ s.status.busy = true ∧ locate 0x100#12 = some (.bWord 0 0) ∧ (Loc.bWord 0 0).isData = true ∧
      locate 0x000#12 = some .cmd ∧ locate 0x00C#12 = some .finfo ∧ Loc.finfo.isData = false ∧
      (hostOf s [.rd .w32 0x100#12]).host = .rd .w32 0x100#12 :: [] ∧
      (hostOf s [.wr .w32 0x100#12 0#32]).host = .wr .w32 0x100#12 0#32 :: [] ∧
      (hostOf s [.wr .w32 0x000#12 0#32]).host = .wr .w32 0x000#12 0#32 :: [] ∧
      (hostOf s [.rd .w32 0x000#12]).host = .rd .w32 0x000#12 :: [] ∧
      (hostOf s [.wr .w32 0x00C#12 0#32]).host = .wr .w32 0x00C#12 0#32 :: [] ∧
      (hostOf State.reset [.rd .w32 0x100#12]).status.busy = false := by decide +kernel

theorem witness_CmdWrite :
    (hostOf State.reset [.wr .w32 0x000#12 0#32]).status.busy = false ∧
      (hostOf State.reset [.wr .w32 0x000#12 0#32]).status.fault = false ∧
      (hostOf faulted [.wr .w32 0x000#12 0#32]).status.busy = false ∧
      (hostOf faulted [.wr .w32 0x000#12 0#32]).status.fault = true ∧
      (hostOf faulted [.wr .w32 0x000#12 0#32]).host = .wr .w32 0x000#12 0#32 :: [] := by decide +kernel

theorem witness_StatusWrite :
    (hostOf State.reset [.wr .w32 0x004#12 2#32]).host = .wr .w32 0x004#12 2#32 :: [] := by decide +kernel

theorem witness_CtrlWrite :
    (0x7FFFFFFF#32).getLsbD 31 = false ∧
      (hostOf State.reset [.wr .w32 0x008#12 0x7FFFFFFF#32]).host = .wr .w32 0x008#12 0x7FFFFFFF#32 :: [] := by
  decide +kernel

theorem witness_ReadOnlyRegisters :
    (hostOf State.reset [.wr .w32 0x00C#12 5#32]).host = .wr .w32 0x00C#12 5#32 :: [] ∧
      (hostOf State.reset [.wr .w32 0x010#12 0#32]).host = .wr .w32 0x010#12 0#32 :: [] := by decide +kernel

theorem witness_SoftReset :
    (0x80000003#32).getLsbD 31 = true ∧
      (hostOf (busyWith (lone 1) (lone 2)) [.wr .w32 0x008#12 0x80000003#32]).host =
        .wr .w32 0x008#12 0x80000003#32 :: [] := by decide +kernel

theorem witness_HardReset : ({ busyWith (lone 1) (lone 2) with schedule := [.resetLine] } : State).turn = .resetLine := by
  decide +kernel

/-- The unit's step on a command, the host's step, and the reset input. -/
theorem witness_StepKeepsInvariant :
    let s := busyWith (lone 1) (lone 2)
    s.Inv ∧ (∃ t, step s = .next t) ∧ (∃ t, step { s with schedule := [.host] } = .next t) ∧
      ∃ t, step { s with schedule := [.resetLine] } = .next t :=
  ⟨(busyWith_inv _ _).1, step_next _, step_next _, step_next _⟩

/-- The unit's turn, and the host's turn on a write of `CTRL` that is no soft reset. -/
theorem witness_FaultIsSticky :
    faulted.Inv ∧ faulted.status.fault = true ∧ ({ faulted with schedule := [.unit] } : State).turn = .unit ∧
      (hostOf faulted [.wr .w32 0x008#12 0x7FFFFFFF#32]).turn = .host ∧
      isSoftReset (.wr .w32 0x008#12 0x7FFFFFFF#32) = false ∧ isSoftReset (.wr .w32 0x008#12 0x80000000#32) = true ∧
      (∃ t, step { faulted with schedule := [.unit] } = .next t) ∧
      ∃ t, step (hostOf faulted [.wr .w32 0x008#12 0x7FFFFFFF#32]) = .next t :=
  ⟨by decide +kernel, by decide +kernel, by decide +kernel, by decide +kernel, by decide +kernel, by decide +kernel,
    step_next _, step_next _⟩

/-- A command that completes and one that faults. -/
theorem witness_InterruptOutput :
    let s := busyWith (lone (2 ^ 63 - 1)) (lone 1)
    s.Inv ∧ s.status.busy = true ∧ (∃ t, exec .nop s = .next t ∧ t.status.fault = false) ∧
      ∃ t, exec (.add 3 1 2) s = .next t ∧ t.status.fault = true :=
  ⟨(busyWith_inv _ _).1, rfl, ⟨_, rfl, rfl⟩, _, rfl, by decide +kernel⟩

theorem witness_CommandFinishes : (busyWith (lone 1) (lone 2)).status.busy = true := rfl

/-- A host that polls once before the complete step and then writes data. -/
theorem witness_ScheduleDoesNotChangeResults :
    let s : State := { busyWith (lone 1) (lone 2) with
      host := [.rd .w32 0x004#12, .wr .w32 0x100#12 5#32], schedule := [.host, .host] }
    s.Inv ∧ .resetLine ∉ s.schedule ∧ (∀ x ∈ s.host, isSoftReset x = false) ∧
      s.schedule.length + 2 * s.host.length + 1 ≤ 7 := by decide +kernel

end Sys2Proof.Tests
end

section
/-! SUPPORT. The host's window: the word an offset names has that offset. -/

namespace Sys2Proof.Machine

theorem offset_of_locateControl {n : Nat} {l : Loc} (h : locateControl n = some l) : l.offset = BitVec.ofNat 12 n := by
  unfold locateControl at h
  split at h <;> cases h <;> rfl

theorem offset_locateB {n : Nat} (h4 : n % 4 = 0) (h : n < 0x80) :
    (locateB n).offset = BitVec.ofNat 12 (0x100 + n) := by
  simp only [locateB, Loc.offset, Fin.ofNat]
  congr 1
  omega

theorem offset_of_locateF {n : Nat} {l : Loc} (h4 : n % 4 = 0) (hn : n < 0x800) (h : locateF n = some l) :
    l.offset = BitVec.ofNat 12 (0x800 + n) := by
  unfold locateF at h
  split at h
  · cases h
    simp only [Loc.offset, Fin.ofNat, beq_iff_eq]
    congr 1
    split <;> omega
  · cases h

/-- The offset of a word of the window is the only one that names it (R50, R56, R57). -/
theorem offset_of_locate {off : Offset} {l : Loc} (h : locate off = some l) : l.offset = off := by
  have hoff : BitVec.ofNat 12 off.toNat = off := by simp
  have hlt : off.toNat < 0x1000 := off.isLt
  unfold locate at h
  simp only at h
  split at h
  · cases h
  split at h
  · rw [offset_of_locateControl h, hoff]
  split at h
  · cases h
    rw [offset_locateB (by omega) (by omega), Nat.add_sub_cancel' (by omega), hoff]
  split at h
  · cases h
  · rw [offset_of_locateF (by omega) (by omega) h, Nat.add_sub_cancel' (by omega), hoff]

end Sys2Proof.Machine
end

section
/-! SUPPORT. What the order of the turns cannot touch. `State.data` is the part of the state that R264 speaks of,
`State.settled` the state once the command in progress has ended, and `State.outcome` the data at the end of the
host's program when every command ends as soon as it is accepted. The outcome does not read the schedule, and every
step without a reset keeps it. -/

namespace Sys2Proof.Machine

/-! ### The data -/

/-- The registers that carry results, with everything else as at reset: `DONE`, `CTRL` and the host's port dropped. -/
def State.data (s : State) : State :=
  { State.reset with
    f := s.f, b := s.b, cmd := s.cmd, finfo := s.finfo, status := { s.status with done := false } }

@[simp] theorem State.data_f (s : State) : s.data.f = s.f := rfl
@[simp] theorem State.data_b (s : State) : s.data.b = s.b := rfl
@[simp] theorem State.data_cmd (s : State) : s.data.cmd = s.cmd := rfl
@[simp] theorem State.data_finfo (s : State) : s.data.finfo = s.finfo := rfl
@[simp] theorem State.data_busy (s : State) : s.data.status.busy = s.status.busy := rfl
@[simp] theorem State.data_fault (s : State) : s.data.status.fault = s.status.fault := rfl
@[simp] theorem State.data_cause (s : State) : s.data.status.cause = s.status.cause := rfl
@[simp] theorem State.data_data (s : State) : s.data.data = s.data := rfl

theorem State.commitF_data (s : State) (d : FReg) (r : Result Fe) :
    (s.data.commitF d r).data = (s.commitF d r).data := by
  cases r <;> rfl

theorem State.commitB_data (s : State) (d : BReg) (r : Result Bytes32) :
    (s.data.commitB d r).data = (s.commitB d r).data := by
  cases r <;> rfl

/-- The data after a command depends on the data before it only. -/
theorem exec_data (i : Instr) (s : State) :
    ∃ t u, exec i s = .next t ∧ exec i s.data = .next u ∧ u.data = t.data := by
  cases i with
  | nop => exact ⟨_, _, rfl, rfl, rfl⟩
  | setc d imm => exact ⟨_, _, rfl, rfl, s.commitF_data d _⟩
  | cpy d a => exact ⟨_, _, rfl, rfl, s.commitF_data d _⟩
  | add d a b => exact ⟨_, _, rfl, rfl, s.commitF_data d _⟩
  | sub d a b => exact ⟨_, _, rfl, rfl, s.commitF_data d _⟩
  | mul d a b => exact ⟨_, _, rfl, rfl, s.commitF_data d _⟩
  | sqr d a => exact ⟨_, _, rfl, rfl, s.commitF_data d _⟩
  | mulc d a imm => exact ⟨_, _, rfl, rfl, s.commitF_data d _⟩
  | inv d a => exact ⟨_, _, rfl, rfl, s.commitF_data d _⟩
  | smul d a b => exact ⟨_, _, rfl, rfl, s.commitF_data d _⟩
  | unpack d a => exact ⟨_, _, rfl, rfl, s.commitF_data d _⟩
  | pack d a => exact ⟨_, _, rfl, rfl, s.commitB_data d _⟩
  | clamp d a => exact ⟨_, _, rfl, rfl, s.commitB_data d _⟩

/-- The data after a host transaction depends on the data before it only. -/
theorem State.perform_data (s : State) (x : Txn) : (s.data.perform x).1.data = (s.perform x).1.data := by
  cases x with
  | rd width off => cases h : target width off <;> simp [State.perform, h]
  | wr width off v =>
    cases h : target width off with
    | none => simp [State.perform, h]
    | some l =>
      simp only [State.perform, h]
      cases l with
      | cmd =>
        cases hf : s.status.fault <;> simp only [State.writeLoc, State.writeCmd, State.data_fault, hf] <;> rfl
      | ctrl =>
        simp only [State.writeLoc, State.writeCtrl]
        split <;> rfl
      | status => rfl
      | finfo => rfl
      | id => rfl
      | bWord r w => rfl
      | fHalf r i high => rfl

/-! ### The command in progress, ended -/

/-- The state after the unit's complete step. -/
def State.settled (s : State) : State :=
  match completeStep s with
  | .next t => t
  | .fault _ => s
  | .refused _ => s

theorem State.settled_of_completeStep {s t : State} (h : completeStep s = .next t) : s.settled = t := by
  rw [State.settled, h]

theorem completeStep_eq_settled (s : State) : completeStep s = .next s.settled := by
  obtain ⟨t, ht, -⟩ := completeStep_ends s
  rw [ht, State.settled_of_completeStep ht]

theorem State.settled_of_idle {s : State} (h : s.status.busy = false) : s.settled = s :=
  State.settled_of_completeStep (by simp [completeStep, h])

theorem State.settled_cases (s : State) :
    (s.status.busy = false ∧ s.settled = s) ∨ (s.status.busy = true ∧ CommandEnd s s.settled) := by
  obtain ⟨t, ht, h⟩ := completeStep_ends s
  rwa [State.settled_of_completeStep ht]

theorem CommandEnd.busy {s t : State} (h : CommandEnd s t) : t.status.busy = false := by
  cases h <;> rfl

theorem CommandEnd.samePort {s t : State} (h : CommandEnd s t) : SamePort s t := by
  cases h <;> exact ⟨rfl, rfl, rfl⟩

/-- A command ends with `FAULT` kept, or set by its own fault. -/
theorem CommandEnd.fault_of_fault {s t : State} (h : CommandEnd s t) (hf : s.status.fault = true) :
    t.status.fault = true := by
  cases h with
  | nothing => exact hf
  | wroteF d v => exact hf
  | wroteB d v => exact hf
  | fault c => rfl

@[simp] theorem State.settled_busy (s : State) : s.settled.status.busy = false := by
  obtain ⟨hb, h⟩ | ⟨-, h⟩ := s.settled_cases
  · rw [h, hb]
  · exact h.busy

theorem State.settled_samePort (s : State) : SamePort s s.settled := by
  obtain ⟨-, h⟩ | ⟨-, h⟩ := s.settled_cases
  · rw [h]; exact ⟨rfl, rfl, rfl⟩
  · exact h.samePort

theorem State.settled_fault_of_fault {s : State} (hf : s.status.fault = true) : s.settled.status.fault = true := by
  obtain ⟨-, h⟩ | ⟨-, h⟩ := s.settled_cases
  · rw [h, hf]
  · exact h.fault_of_fault hf

@[simp] theorem State.settled_settled (s : State) : s.settled.settled = s.settled :=
  State.settled_of_idle s.settled_busy

/-- The data after the complete step depends on the data before it only. -/
theorem State.settled_data (s : State) : s.data.settled.data = s.settled.data := by
  cases hb : s.status.busy with
  | false => rw [State.settled_of_idle hb, State.settled_of_idle (s := s.data) hb, State.data_data]
  | true =>
    cases hd : decode s.cmd with
    | ok i =>
      obtain ⟨t, u, ht, hu, h⟩ := exec_data i s
      rw [State.settled_of_completeStep (s := s) (t := t) (by simpa [completeStep, hb, hd] using ht),
        State.settled_of_completeStep (s := s.data) (t := u) (by simpa [completeStep, hb, hd] using hu), h]
    | error e =>
      rw [State.settled_of_completeStep (s := s) (t := s.takeFault .illegalCmd) (by simp [completeStep, hb, hd]),
        State.settled_of_completeStep (s := s.data) (t := s.data.takeFault .illegalCmd)
          (by simp [completeStep, hb, hd])]
      rfl

theorem State.settled_data_congr {s t : State} (h : s.data = t.data) : s.settled.data = t.settled.data := by
  rw [← s.settled_data, ← t.settled_data, h]

/-! ### The outcome -/

/-- The data after a host transaction and, if it accepted a command, the end of that command. -/
def State.afterTxn (s : State) (x : Txn) : State := (s.perform x).1.settled.data

/-- The data at the end of the host's program when every command ends as soon as it is accepted. -/
def State.outcome (s : State) : State := s.host.foldl State.afterTxn s.settled.data

theorem State.afterTxn_congr {s t : State} (h : s.data = t.data) (x : Txn) : s.afterTxn x = t.afterTxn x :=
  State.settled_data_congr (by rw [← s.perform_data, ← t.perform_data, h])

theorem State.outcome_congr {s t : State} (hh : s.host = t.host) (h : s.data = t.data) : s.outcome = t.outcome := by
  rw [State.outcome, State.outcome, hh, State.settled_data_congr h]

theorem State.outcome_settled (s : State) : s.settled.outcome = s.outcome := by
  rw [State.outcome, State.outcome, s.settled_samePort.host, s.settled_settled]

theorem State.outcome_of_ended {s : State} (h : s.Ended) : s.outcome = s.data := by
  obtain ⟨hh, hb⟩ := h
  rw [State.outcome, hh, State.settled_of_idle hb, List.foldl_nil]

/-- A transaction that the busy unit does not hold, other than the soft reset, touches no data: if it is a write at all,
it is of a control register, or of `CMD` in the faulted state, where it is ignored (R29, R60). -/
theorem perform_data_of_not_held {s u : State} {x : Txn} (hb : s.status.busy = true) (hx : s.holds x = false)
    (hr : isSoftReset x = false) (hf : s.status.fault = true → u.status.fault = true) :
    (u.perform x).1.data = u.data := by
  obtain h | ⟨off, v, l, rfl, hl, h⟩ := perform_cases u x
  · rw [h]
  · rw [h]
    cases l with
    | cmd =>
      have hfault : s.status.fault = true := by simpa [State.holds, target, hl, hb, Loc.isData] using hx
      simp [State.writeLoc, State.writeCmd, hf hfault]
    | ctrl =>
      have hoff : off = 0x008#12 := (offset_of_locate hl).symm
      have hv : v.getLsbD 31 = false := by simpa [isSoftReset, hoff] using hr
      simp only [State.writeLoc, State.writeCtrl, hv]
      rfl
    | status => rfl
    | finfo => rfl
    | id => rfl
    | bWord r w => simp [State.holds, target, hl, hb, Loc.isData] at hx
    | fHalf r i high => simp [State.holds, target, hl, hb, Loc.isData] at hx

/-- A transaction that is not held acts on the data alike before and after the command in progress ends. -/
theorem settled_perform_data {s : State} {x : Txn} (hx : s.holds x = false) (hr : isSoftReset x = false) :
    (s.perform x).1.settled.data = s.settled.afterTxn x := by
  cases hb : s.status.busy with
  | false => rw [State.settled_of_idle hb]; rfl
  | true =>
    have hbefore : (s.perform x).1.data = s.data := perform_data_of_not_held hb hx hr id
    have hafter : (s.settled.perform x).1.data = s.settled.data :=
      perform_data_of_not_held hb hx hr State.settled_fault_of_fault
    rw [State.afterTxn, State.settled_data_congr hbefore, State.settled_data_congr hafter, s.settled_settled]

theorem State.doTxn_data (s : State) (x : Txn) (rest : List Txn) :
    (s.doTxn x rest).data = (s.perform x).1.data := by
  calc (s.doTxn x rest).data = (({ s with host := rest } : State).perform x).1.data := rfl
    _ = (s.data.perform x).1.data := (State.perform_data _ x).symm
    _ = (s.perform x).1.data := s.perform_data x

theorem outcome_doTxn {s : State} {x : Txn} {rest : List Txn} (hh : s.host = x :: rest) (hx : s.holds x = false)
    (hr : isSoftReset x = false) : (s.doTxn x rest).outcome = s.outcome := by
  have h : (s.doTxn x rest).settled.data = s.settled.data.afterTxn x := by
    rw [State.settled_data_congr (s.doTxn_data x rest), settled_perform_data hx hr,
      State.afterTxn_congr s.settled.data_data]
  rw [State.outcome, State.outcome, State.doTxn_host, hh, List.foldl_cons, h]

/-! ### Runs without resets -/

/-- No reset is to come: neither the reset input on the schedule nor a soft reset in the host's program. -/
structure State.NoReset (s : State) : Prop where
  schedule : .resetLine ∉ s.schedule
  host : ∀ x ∈ s.host, isSoftReset x = false

/-- How many more steps the run can take until it has ended: one per turn on the schedule, then two per transaction
(it, and the command it may accept) and one for the command in progress. -/
def State.stepsLeft (s : State) : Nat :=
  s.schedule.length + 2 * s.host.length + s.status.busy.toNat

theorem State.ended_of_stepsLeft {s : State} (h : s.stepsLeft = 0) : s.Ended := by
  simp only [State.stepsLeft, Nat.add_eq_zero_iff, Nat.mul_eq_zero, List.length_eq_zero_iff] at h
  obtain ⟨⟨-, hh⟩, hb⟩ := h
  exact ⟨by simpa using hh, by simpa using hb⟩

theorem State.stepsLeft_le (s : State) : s.stepsLeft ≤ s.schedule.length + 2 * s.host.length + 1 := by
  rw [State.stepsLeft]
  exact Nat.add_le_add_left (Bool.toNat_le _) _

theorem State.le_stepsLeft (s : State) : s.schedule.length + 2 * s.host.length ≤ s.stepsLeft :=
  Nat.le_add_right _ _

theorem State.taken_stepsLeft {s : State} {a : Agent} {rest : List Agent} (hs : s.schedule = a :: rest) :
    s.taken.stepsLeft = s.stepsLeft - 1 := by
  simp only [State.stepsLeft, State.taken_schedule, State.taken_host, State.taken_status, hs, List.tail_cons,
    List.length_cons]
  omega

theorem State.settled_stepsLeft (s : State) : s.settled.stepsLeft = s.schedule.length + 2 * s.host.length := by
  simp [State.stepsLeft, s.settled_samePort.schedule, s.settled_samePort.host]

theorem State.doTxn_stepsLeft {s : State} {x : Txn} {rest : List Txn} (hh : s.host = x :: rest) :
    (s.doTxn x rest).stepsLeft ≤ s.schedule.length + 2 * s.host.length - 1 := by
  have h := (s.doTxn x rest).stepsLeft_le
  rw [State.doTxn_schedule, State.doTxn_host] at h
  rw [hh, List.length_cons]
  omega

/-- The turn is the next one of the schedule; after the schedule it is the unit's exactly while it is busy. -/
theorem turn_cases (s : State) :
    (∃ rest, s.schedule = s.turn :: rest) ∨
      (s.schedule = [] ∧ s.turn = if s.status.busy then .unit else .host) := by
  rw [State.turn]
  cases s.schedule with
  | nil => exact .inr ⟨rfl, rfl⟩
  | cons a rest => exact .inl ⟨rest, rfl⟩

/-- The host's step changes nothing only when its list is empty or the unit is busy; else it does a transaction. -/
theorem hostStep_waits_or_doTxn (s : State) :
    (s.hostStep = s ∧ (s.host = [] ∨ s.status.busy = true)) ∨
      ∃ x rest, s.host = x :: rest ∧ s.holds x = false ∧ s.hostStep = s.doTxn x rest := by
  obtain h | h := hostStep_cases s
  · refine .inl ⟨h, ?_⟩
    cases hh : s.host with
    | nil => exact .inl rfl
    | cons x rest =>
      cases hb : s.status.busy with
      | true => exact .inr rfl
      | false =>
        have hx : s.holds x = false := by cases x <;> simp [State.holds, hb]
        have hrest : s.hostStep.host = rest := by simp [State.hostStep, hh, hx]
        rw [h, hh] at hrest
        exact absurd hrest (List.cons_ne_self x rest)
  · exact .inr h

/-- What a step of a run without resets does: the run stays without resets, keeps its outcome and comes nearer its end. -/
structure Advances (s t : State) : Prop where
  noReset : t.NoReset
  outcome : t.outcome = s.outcome
  stepsLeft : t.stepsLeft ≤ s.stepsLeft - 1

theorem State.NoReset.taken {s : State} (h : s.NoReset) : s.taken.NoReset :=
  ⟨fun hm => h.schedule (List.mem_of_mem_tail hm), h.host⟩

theorem State.outcome_taken (s : State) : s.taken.outcome = s.outcome := State.outcome_congr rfl rfl

theorem advances_unit {s : State} (h : s.NoReset) (ht : s.turn = .unit) : Advances s s.taken.settled where
  noReset := by
    have hp := s.taken.settled_samePort
    exact ⟨by rw [hp.schedule]; exact h.taken.schedule, by rw [hp.host]; exact h.taken.host⟩
  outcome := by rw [State.outcome_settled, State.outcome_taken]
  stepsLeft := by
    rw [State.settled_stepsLeft]
    obtain ⟨rest, hs⟩ | ⟨hs, hturn⟩ := turn_cases s
    · exact State.taken_stepsLeft hs ▸ s.taken.le_stepsLeft
    · have hb : s.status.busy = true := by
        by_contra hb
        simp [hb, ht] at hturn
      simp [State.stepsLeft, hs, hb]

theorem advances_host {s : State} (h : s.NoReset) (ht : s.turn = .host) : Advances s s.taken.hostStep := by
  have hturn : (∃ a rest, s.schedule = a :: rest) ∨ (s.schedule = [] ∧ s.status.busy = false) := by
    obtain ⟨rest, hs⟩ | ⟨hs, hturn⟩ := turn_cases s
    · exact .inl ⟨_, rest, hs⟩
    · refine .inr ⟨hs, ?_⟩
      by_contra hb
      simp [hb, ht] at hturn
  obtain ⟨hstep, hwhy⟩ | ⟨x, rest, hh, hx, hstep⟩ := hostStep_waits_or_doTxn s.taken
  · rw [hstep]
    refine ⟨h.taken, s.outcome_taken, ?_⟩
    obtain ⟨a, rest, hs⟩ | ⟨hs, hb⟩ := hturn
    · exact (State.taken_stepsLeft hs).le
    · have hnil : s.host = [] := by simpa [hb] using hwhy
      simp [State.stepsLeft, hs, hb, hnil]
  · rw [hstep]
    have hhost : ∀ y ∈ x :: rest, isSoftReset y = false := hh ▸ h.taken.host
    refine ⟨⟨by rw [State.doTxn_schedule]; exact h.taken.schedule, ?_⟩, ?_, ?_⟩
    · rw [State.doTxn_host]
      exact fun y hy => hhost y (List.mem_cons_of_mem x hy)
    · rw [outcome_doTxn hh hx (hhost x List.mem_cons_self), State.outcome_taken]
    · have hle := State.doTxn_stepsLeft hh
      simp only [State.taken_schedule, State.taken_host, List.length_tail] at hle
      have := s.le_stepsLeft
      omega

theorem step_advances {s : State} (h : s.NoReset) : ∃ t, step s = .next t ∧ Advances s t := by
  cases ht : s.turn with
  | unit => exact ⟨_, by rw [step, ht]; exact completeStep_eq_settled s.taken, advances_unit h ht⟩
  | host => exact ⟨_, by rw [step, ht], advances_host h ht⟩
  | resetLine =>
    obtain ⟨rest, hs⟩ | ⟨-, hturn⟩ := turn_cases s
    · exact absurd (by simp [hs, ht]) h.schedule
    · cases hb : s.status.busy <;> simp [hb, ht] at hturn

theorem run_succ (M : Host.Core) (k : Nat) {s u : M.State} (h : M.step s = .next u) : M.run (k + 1) s = M.run k u := by
  rw [Host.Core.run, h]

/-- `k` steps without resets keep the outcome and bring the end nearer by `k`. -/
theorem run_keeps_outcome (k : Nat) {s : State} (h : s.NoReset) :
    ∃ t : State, core.run k s = .next t ∧ t.outcome = s.outcome ∧ t.stepsLeft ≤ s.stepsLeft - k := by
  induction k generalizing s with
  | zero => exact ⟨s, rfl, rfl, le_rfl⟩
  | succ k ih =>
    obtain ⟨u, hu, hadv⟩ := step_advances h
    obtain ⟨t, ht, hout, hleft⟩ := ih hadv.noReset
    exact ⟨t, by rw [run_succ core k hu, ht], by rw [hout, hadv.outcome], by have := hadv.stepsLeft; omega⟩

/-- A run without resets that is long enough ends, with the outcome as its data. -/
theorem run_ends_with_outcome {k : Nat} {s : State} (h : s.NoReset)
    (hk : s.schedule.length + 2 * s.host.length + 1 ≤ k) :
    ∃ t : State, core.run k s = .next t ∧ t.Ended ∧ t.data = s.outcome := by
  obtain ⟨t, ht, hout, hleft⟩ := run_keeps_outcome k h
  have hended : t.Ended := State.ended_of_stepsLeft (by have := s.stepsLeft_le; omega)
  exact ⟨t, ht, hended, by rw [← hout, State.outcome_of_ended hended]⟩

/-- Settles O60: the outcome does not read the schedule, every step without a reset keeps it, and it is the data of a
run that has ended. -/
theorem scheduleDoesNotChangeResults : Obligations.ScheduleDoesNotChangeResults := by
  intro s k _ hsched hhost hk
  have hplain : ({ s with schedule := [] } : State).NoReset := ⟨List.not_mem_nil, hhost⟩
  obtain ⟨t, ht, hended, hdata⟩ := run_ends_with_outcome ⟨hsched, hhost⟩ hk
  obtain ⟨t', ht', hended', hdata'⟩ := run_ends_with_outcome (k := k) hplain
    (by simp only [List.length_nil]; omega)
  have hout : ({ s with schedule := [] } : State).outcome = s.outcome := State.outcome_congr rfl rfl
  have heq : t.data = t'.data := by rw [hdata, hdata', hout]
  exact ⟨t, t', ht, ht', hended, hended', (congrArg State.f heq :), (congrArg State.b heq :),
    (congrArg State.cmd heq :), (congrArg State.finfo heq :), (congrArg (·.status.fault) heq :),
    (congrArg (·.status.cause) heq :)⟩

end Sys2Proof.Machine
end

section
/-! SUPPORT. The status invariant: reset meets it, and every step keeps it, since the end of a command, the effect of a
host's write and the reset each do. -/

namespace Sys2Proof.Machine

/-! ### The two writes that branch -/

theorem State.writeCmd_of_fault {s : State} (w : Word) (h : s.status.fault = true) : s.writeCmd w = s := if_pos h

theorem State.writeCmd_of_not_fault {s : State} (w : Word) (h : s.status.fault = false) :
    s.writeCmd w = s.accept w := if_neg (by simp [h])

theorem State.writeCtrl_of_srst (s : State) {v : Word} (h : v.getLsbD 31 = true) : s.writeCtrl v = s.resetUnit :=
  if_pos h

theorem State.writeCtrl_of_not_srst (s : State) {v : Word} (h : v.getLsbD 31 = false) :
    s.writeCtrl v = { s with ctrl := Ctrl.written v } := if_neg (by rw [h]; decide)

/-! ### The invariant -/

/-- The invariant speaks of `STATUS`, `CMD` and `FINFO` only. -/
theorem State.Inv.congr {s t : State} (hi : s.Inv) (hstatus : t.status = s.status) (hcmd : t.cmd = s.cmd)
    (hfinfo : t.finfo = s.finfo) : t.Inv := by
  rw [State.Inv, hstatus, hcmd, hfinfo]
  exact hi

theorem inv_reset : State.reset.Inv := by decide

theorem inv_resetUnit (s : State) : s.resetUnit.Inv := inv_reset.congr rfl rfl rfl

theorem FaultCause.code_range (c : FaultCause) : 1 ≤ c.code.toNat ∧ c.code.toNat ≤ 4 := by
  cases c <;> decide

theorem inv_takeFault {s : State} (c : FaultCause) (hi : s.Inv) (hb : s.status.busy = true) : (s.takeFault c).Inv := by
  obtain ⟨hbusy, -, -, -⟩ := hi
  obtain ⟨hdone, -⟩ := hbusy hb
  simp [State.Inv, hdone, c.code_range]

theorem inv_complete {s : State} (hi : s.Inv) (hb : s.status.busy = true) : s.complete.Inv := by
  obtain ⟨hbusy, -, hclear, -⟩ := hi
  obtain ⟨-, hfault⟩ := hbusy hb
  simp [State.Inv, hfault, hclear hfault]

/-- The end of a command in progress keeps the invariant, however it ends (R217, R219). -/
theorem CommandEnd.inv {s t : State} (h : CommandEnd s t) (hi : s.Inv) (hb : s.status.busy = true) : t.Inv := by
  cases h with
  | nothing => exact inv_complete hi hb
  | wroteF d v => exact (inv_complete hi hb).congr rfl rfl rfl
  | wroteB d v => exact (inv_complete hi hb).congr rfl rfl rfl
  | fault c => exact inv_takeFault c hi hb

theorem inv_writeCmd {s : State} (w : Word) (hi : s.Inv) : (s.writeCmd w).Inv := by
  cases hf : s.status.fault with
  | true => rwa [State.writeCmd_of_fault w hf]
  | false =>
    obtain ⟨-, -, hclear, -⟩ := hi
    simp [State.Inv, State.writeCmd_of_not_fault w hf, hf, hclear hf]

theorem inv_writeStatus {s : State} (v : Word) (hi : s.Inv) : (s.writeStatus v).Inv := by
  obtain ⟨hbusy, hboth, hclear, hset⟩ := hi
  refine ⟨fun hb => ?_, fun ⟨hdone, hfault⟩ => hboth ⟨?_, hfault⟩, hclear, hset⟩
  · obtain ⟨hdone, hfault⟩ := hbusy hb
    simp [hdone, hfault]
  · exact (Bool.and_eq_true_iff.mp hdone).1

theorem inv_writeCtrl {s : State} (v : Word) (hi : s.Inv) : (s.writeCtrl v).Inv := by
  cases hv : v.getLsbD 31 with
  | true => rw [s.writeCtrl_of_srst hv]; exact inv_resetUnit s
  | false => rw [s.writeCtrl_of_not_srst hv]; exact hi.congr rfl rfl rfl

/-- A write of any word of the window keeps the invariant. -/
theorem inv_writeLoc {s : State} (v : Word) (l : Loc) (hi : s.Inv) : (s.writeLoc v l).Inv := by
  cases l with
  | cmd => exact inv_writeCmd v hi
  | status => exact inv_writeStatus v hi
  | ctrl => exact inv_writeCtrl v hi
  | finfo => exact hi
  | id => exact hi
  | bWord r w => exact hi.congr rfl rfl rfl
  | fHalf r i high => exact hi.congr rfl rfl rfl

theorem inv_perform {s : State} (x : Txn) (hi : s.Inv) : (s.perform x).1.Inv := by
  obtain h | ⟨off, v, l, -, -, h⟩ := perform_cases s x
  · rw [h]; exact hi
  · rw [h]; exact inv_writeLoc v l hi

theorem inv_hostStep {s : State} (hi : s.Inv) : s.hostStep.Inv := by
  obtain h | ⟨x, rest, -, -, h⟩ := hostStep_cases s
  · rw [h]; exact hi
  · rw [h]
    have hrest : ({ s with host := rest } : State).Inv := hi.congr rfl rfl rfl
    exact (inv_perform x hrest).congr rfl rfl rfl

theorem inv_completeStep {s t : State} (hi : s.Inv) (h : completeStep s = .next t) : t.Inv := by
  rw [← State.settled_of_completeStep h]
  obtain ⟨-, hidle⟩ | ⟨hb, hend⟩ := s.settled_cases
  · rw [hidle]; exact hi
  · exact hend.inv hi hb

/-- Settles O55: at reset `STATUS`, `CMD` and `FINFO` are 0. -/
theorem resetMeetsInvariant : Obligations.ResetMeetsInvariant := inv_reset

/-- Settles O56: the unit's complete step, the host's step and the reset each keep the invariant. -/
theorem stepKeepsInvariant : Obligations.StepKeepsInvariant := by
  intro s t hi h
  have htaken : s.taken.Inv := hi.congr rfl rfl rfl
  obtain ⟨-, hunit⟩ | ⟨-, rfl⟩ | ⟨-, rfl⟩ := step_cases h
  · exact inv_completeStep htaken hunit
  · exact inv_hostStep htaken
  · exact inv_resetUnit s.taken

end Sys2Proof.Machine
end

section
/-! SUPPORT. What a command reads and writes (R22, R25): how it ends from two states that agree on its sources. -/

namespace Sys2Proof.Machine

/-- The command `i` ends alike from `s` and `s'`: it writes nothing, or its function gives both states one answer, for
the one register it names as destination. -/
inductive EndsAlike (i : Instr) (s s' : State) : Prop where
  | nothing (h : exec i s = .next s.complete) (h' : exec i s' = .next s'.complete) (hF : ∀ x, ¬ writesF i x)
      (hB : ∀ x, ¬ writesB i x)
  | forF (d : FReg) (r : Result Fe) (h : exec i s = .next (s.commitF d r)) (h' : exec i s' = .next (s'.commitF d r))
      (hF : ∀ x, writesF i x ↔ x = d) (hB : ∀ x, ¬ writesB i x)
  | forB (d : BReg) (r : Result Bytes32) (h : exec i s = .next (s.commitB d r))
      (h' : exec i s' = .next (s'.commitB d r)) (hF : ∀ x, ¬ writesF i x) (hB : ∀ x, writesB i x ↔ x = d)

theorem exec_endsAlike (i : Instr) {s s' : State} (hF : ∀ r, readsF i r → s'.readF r = s.readF r)
    (hB : ∀ r, readsB i r → s'.readB r = s.readB r) : EndsAlike i s s' := by
  cases i with
  | nop => exact .nothing rfl rfl (fun _ => id) (fun _ => id)
  | setc d imm => exact .forF d _ rfl rfl (fun _ => .rfl) (fun _ => id)
  | cpy d a => exact .forF d _ rfl (by rw [exec, execCpy, hF a rfl]) (fun _ => .rfl) (fun _ => id)
  | add d a b =>
    exact .forF d _ rfl (by rw [exec, execAdd, hF a (.inl rfl), hF b (.inr rfl)]) (fun _ => .rfl) (fun _ => id)
  | sub d a b =>
    exact .forF d _ rfl (by rw [exec, execSub, hF a (.inl rfl), hF b (.inr rfl)]) (fun _ => .rfl) (fun _ => id)
  | mul d a b =>
    exact .forF d _ rfl (by rw [exec, execMul, hF a (.inl rfl), hF b (.inr rfl)]) (fun _ => .rfl) (fun _ => id)
  | sqr d a => exact .forF d _ rfl (by rw [exec, execSqr, hF a rfl]) (fun _ => .rfl) (fun _ => id)
  | mulc d a imm => exact .forF d _ rfl (by rw [exec, execMulc, hF a rfl]) (fun _ => .rfl) (fun _ => id)
  | inv d a => exact .forF d _ rfl (by rw [exec, execInv, hF a rfl]) (fun _ => .rfl) (fun _ => id)
  | smul d a b => exact .forF d _ rfl (by rw [exec, execSmul, hF a rfl, hB b rfl]) (fun _ => .rfl) (fun _ => id)
  | unpack d a => exact .forF d _ rfl (by rw [exec, execUnpack, hB a rfl]) (fun _ => .rfl) (fun _ => id)
  | pack d a => exact .forB d _ rfl (by rw [exec, execPack, hF a rfl]) (fun _ => id) (fun _ => .rfl)
  | clamp d a => exact .forB d _ rfl (by rw [exec, execClamp, hB a rfl]) (fun _ => id) (fun _ => .rfl)

/-! What the two ends with a result leave, and that they agree where the results do. -/

theorem commitF_readF_of_ne (s : State) {d x : FReg} (r : Result Fe) (h : x ≠ d) :
    (s.commitF d r).readF x = s.readF x := by
  cases r <;> simp [State.readF_writeF, h]

@[simp] theorem commitF_readB (s : State) (d : FReg) (r : Result Fe) (x : BReg) :
    (s.commitF d r).readB x = s.readB x := by
  cases r <;> simp

theorem commitB_readB_of_ne (s : State) {d x : BReg} (r : Result Bytes32) (h : x ≠ d) :
    (s.commitB d r).readB x = s.readB x := by
  cases r <;> simp [State.readB_writeB, h]

@[simp] theorem commitB_readF (s : State) (d : BReg) (r : Result Bytes32) (x : FReg) :
    (s.commitB d r).readF x = s.readF x := by
  cases r <;> simp

theorem commitF_status_congr {s s' : State} (h : s'.status = s.status) (d : FReg) (r : Result Fe) :
    (s'.commitF d r).status = (s.commitF d r).status := by
  cases r <;> simp [h]

theorem commitB_status_congr {s s' : State} (h : s'.status = s.status) (d : BReg) (r : Result Bytes32) :
    (s'.commitB d r).status = (s.commitB d r).status := by
  cases r <;> simp [h]

/-- Where the command does not fault, its destination holds the result, whatever the state was. -/
theorem commitF_dest_congr {s : State} (s' : State) {d : FReg} {r : Result Fe}
    (h : (s.commitF d r).status.fault = false) : (s'.commitF d r).readF d = (s.commitF d r).readF d := by
  cases r with
  | ok v => simp
  | error c => simp at h

theorem commitB_dest_congr {s : State} (s' : State) {d : BReg} {r : Result Bytes32}
    (h : (s.commitB d r).status.fault = false) : (s'.commitB d r).readB d = (s.commitB d r).readB d := by
  cases r with
  | ok v => simp
  | error c => simp at h

/-- Settles O10: the two states give the command's function the same sources, so they end with the same answer. -/
theorem commandReadsAndWrites : Obligations.CommandReadsAndWrites := by
  intro i s s' hsrcF hsrcB hstatus
  cases exec_endsAlike i hsrcF hsrcB with
  | nothing h h' hF hB =>
    exact ⟨_, _, h, h', by simp [hstatus], fun x _ => by simp, fun x _ => by simp,
      fun _ _ => ⟨fun x hx => absurd hx (hF x), fun x hx => absurd hx (hB x)⟩⟩
  | forF d r h h' hF hB =>
    refine ⟨_, _, h, h', commitF_status_congr hstatus d r,
      fun x hx => commitF_readF_of_ne s r fun he => hx ((hF x).mpr he), fun x _ => by simp,
      fun _ hfault => ⟨fun x hx => ?_, fun x hx => absurd hx (hB x)⟩⟩
    rw [(hF x).mp hx]
    exact commitF_dest_congr s' hfault
  | forB d r h h' hF hB =>
    refine ⟨_, _, h, h', commitB_status_congr hstatus d r, fun x _ => by simp,
      fun x hx => commitB_readB_of_ne s r fun he => hx ((hB x).mpr he),
      fun _ hfault => ⟨fun x hx => absurd hx (hF x), fun x hx => ?_⟩⟩
    rw [(hB x).mp hx]
    exact commitB_dest_congr s' hfault

end Sys2Proof.Machine
end

section
/-! SUPPORT. The control registers: what a host's write of each does (R29 to R33, R53), what `STATUS` and `CTRL` read
as, and the values after reset (R38). -/

namespace Sys2Proof.Machine

/-! ### The host's write of a word -/

theorem SameUnit.trans {s t u : State} (h : SameUnit s t) (h' : SameUnit t u) : SameUnit s u where
  f r := (h'.f r).trans (h.f r)
  b r := (h'.b r).trans (h.b r)
  cmd := h'.cmd.trans h.cmd
  status := h'.status.trans h.status
  ctrl := h'.ctrl.trans h.ctrl
  finfo := h'.finfo.trans h.finfo

/-- Nothing is held while no command is in progress (R60). -/
theorem holds_of_idle {s : State} (hb : s.status.busy = false) (x : Txn) : s.holds x = false := by
  cases x <;> simp [State.holds, hb]

/-- A write of a control register other than `CMD` is never held (R60). -/
theorem holds_wr_control (s : State) {off : Offset} {l : Loc} (v : Word) (hl : locate off = some l)
    (hdata : l.isData = false) (hcmd : l ≠ .cmd) : s.holds (.wr .w32 off v) = false := by
  simp [State.holds, target, hl, hdata, hcmd]

/-- The effect of a write neither reads nor changes the host's side of the port. -/
theorem writeLoc_port (s : State) (host : List Txn) (v : Word) (l : Loc) :
    ({ s with host := host } : State).writeLoc v l = { s.writeLoc v l with host := host } ∧
      (s.writeLoc v l).responses = s.responses ∧ (s.writeLoc v l).schedule = s.schedule := by
  cases l with
  | cmd => simp only [State.writeLoc, State.writeCmd]; split <;> exact ⟨rfl, rfl, rfl⟩
  | ctrl => simp only [State.writeLoc, State.writeCtrl]; split <;> exact ⟨rfl, rfl, rfl⟩
  | status => exact ⟨rfl, rfl, rfl⟩
  | finfo => exact ⟨rfl, rfl, rfl⟩
  | id => exact ⟨rfl, rfl, rfl⟩
  | bWord r w => exact ⟨rfl, rfl, rfl⟩
  | fHalf r i high => exact ⟨rfl, rfl, rfl⟩

/-- The host's write of an implemented word, not held: the unit is as the write leaves it, the response is `OK`. -/
theorem hostStep_write {s : State} {off : Offset} {v : Word} {l : Loc} {rest : List Txn} (hl : locate off = some l)
    (hh : s.host = .wr .w32 off v :: rest) (hx : s.holds (.wr .w32 off v) = false) :
    SameUnit (s.writeLoc v l) s.hostStep ∧ TxnDone s s.hostStep rest .ok := by
  obtain ⟨hhost, hresponses, hschedule⟩ := writeLoc_port s rest v l
  have hstep : s.hostStep = { s.writeLoc v l with host := rest, responses := .ok :: s.responses } := by
    simp [State.hostStep, hh, hx, State.doTxn, State.perform, target, hl, hhost, hresponses]
  rw [hstep]
  exact ⟨⟨fun _ => rfl, fun _ => rfl, rfl, rfl, rfl, rfl⟩, ⟨rfl, rfl, hschedule⟩⟩

/-- The same for a control register other than `CMD`, at any time. -/
theorem hostStep_write_control {s : State} {off : Offset} {v : Word} {l : Loc} {rest : List Txn}
    (hl : locate off = some l) (hdata : l.isData = false) (hcmd : l ≠ .cmd) (hh : s.host = .wr .w32 off v :: rest) :
    SameUnit (s.writeLoc v l) s.hostStep ∧ TxnDone s s.hostStep rest .ok :=
  hostStep_write hl hh (holds_wr_control s v hl hdata hcmd)

/-- Settles O47: the write is not held while `BUSY` is 0, and its effect is `writeCmd`, with or without a fault. -/
theorem cmdWrite : Obligations.CmdWrite := by
  intro s w rest hb hh
  obtain ⟨hunit, hdone⟩ := hostStep_write (l := .cmd) rfl hh (holds_of_idle hb _)
  rw [State.writeLoc] at hunit
  refine ⟨hdone, fun hf => ?_, fun hf => ?_⟩
  · rwa [State.writeCmd_of_fault w hf] at hunit
  · rw [State.writeCmd_of_not_fault w hf] at hunit
    obtain ⟨hF, hB, hcmd, hstatus, hctrl, hfinfo⟩ := hunit
    rw [hstatus]
    exact ⟨hcmd, rfl, rfl, hf, rfl, hctrl, hfinfo, hF, hB⟩

/-- Settles O48: the write is never held, and its effect is `writeStatus`. -/
theorem statusWrite : Obligations.StatusWrite := by
  intro s v rest hh
  obtain ⟨⟨hF, hB, hcmd, hstatus, hctrl, hfinfo⟩, hdone⟩ :=
    hostStep_write_control (l := .status) rfl rfl (by decide) hh
  rw [hstatus]
  exact ⟨hdone, rfl, rfl, rfl, rfl, hcmd, hctrl, hfinfo, hF, hB⟩

/-- Settles O51: the writes are never held, and have no effect. -/
theorem readOnlyRegisters : Obligations.ReadOnlyRegisters := by
  intro s off v rest hoff hh
  obtain rfl | rfl := hoff
  · obtain ⟨hunit, hdone⟩ := hostStep_write_control (l := .finfo) rfl rfl (by decide) hh
    exact ⟨hunit, hdone, rfl⟩
  · obtain ⟨hunit, hdone⟩ := hostStep_write_control (l := .id) rfl rfl (by decide) hh
    exact ⟨hunit, hdone, rfl⟩

/-! ### `STATUS` and `CTRL` bit by bit -/

/-- `STATUS` is its fields side by side (R30). -/
theorem Status.word_eq_append (st : Status) :
    st.word = (st.cause ++ 0#1 ++ BitVec.ofBool st.fault ++ BitVec.ofBool st.done ++
      BitVec.ofBool st.busy).setWidth 32 := by
  obtain ⟨busy, done, fault, cause⟩ := st
  revert busy done fault cause
  decide

/-- `CTRL` is its fields side by side (R31). -/
theorem Ctrl.word_eq_append (c : Ctrl) : c.word = (BitVec.ofBool c.ieFault ++ BitVec.ofBool c.ieDone).setWidth 32 := by
  obtain ⟨ieDone, ieFault⟩ := c
  revert ieDone ieFault
  decide

theorem Status.getLsbD_word (st : Status) {n : Nat} (hn : n < 32) :
    st.word.getLsbD n = (if n = 0 then st.busy else if n = 1 then st.done else if n = 2 then st.fault
      else if 4 ≤ n ∧ n < 8 then st.cause.getLsbD (n - 4) else false) := by
  rw [st.word_eq_append]
  simp only [BitVec.getLsbD_setWidth, BitVec.getLsbD_append, BitVec.getLsbD_ofBool, BitVec.getLsbD_zero, hn,
    decide_true, Bool.true_and]
  rcases n with _ | _ | _ | _ | m
  · rfl
  · rfl
  · rfl
  · rfl
  · by_cases h : m < 4
    · simp [h, show m + 4 < 8 by omega]
    · simp [show ¬ m + 4 < 8 by omega, BitVec.getLsbD_of_ge st.cause m (by omega)]

theorem Ctrl.getLsbD_word (c : Ctrl) {n : Nat} (hn : n < 32) :
    c.word.getLsbD n = (if n = 0 then c.ieDone else if n = 1 then c.ieFault else false) := by
  rw [c.word_eq_append]
  simp only [BitVec.getLsbD_setWidth, BitVec.getLsbD_append, BitVec.getLsbD_ofBool, hn, decide_true, Bool.true_and]
  rcases n with _ | _ | m
  · rfl
  · simp
  · simp

/-- Settles O49: each word is its fields side by side, so each bit is a bit of one field or 0. -/
theorem controlRegisterBits : Obligations.ControlRegisterBits :=
  fun s => ⟨fun _ hn => s.status.getLsbD_word hn, fun _ hn => s.ctrl.getLsbD_word hn⟩

/-- What `CTRL` reads as after a write: the enables, bits 1:0 of the word written (R31). -/
theorem Ctrl.word_written (v : Word) : (Ctrl.written v).word = v &&& 0x3#32 := by
  have hthree : 0x3#32 = (BitVec.allOnes 2).setWidth 32 := rfl
  apply BitVec.eq_of_getLsbD_eq
  intro n hn
  rw [Ctrl.getLsbD_word _ hn, BitVec.getLsbD_and, hthree, BitVec.getLsbD_setWidth, BitVec.getLsbD_allOnes]
  rcases n with _ | _ | m
  · simp [Ctrl.written]
  · simp [Ctrl.written]
  · simp

/-- Settles O50: with bit 31 clear the effect of the write is `Ctrl.written`, which reads as bits 1:0. -/
theorem ctrlWrite : Obligations.CtrlWrite := by
  intro s v rest hv hh
  obtain ⟨hunit, hdone⟩ := hostStep_write_control (l := .ctrl) rfl rfl (by decide) hh
  rw [State.writeLoc, s.writeCtrl_of_not_srst hv] at hunit
  obtain ⟨hF, hB, hcmd, hstatus, hctrl, hfinfo⟩ := hunit
  refine ⟨hdone, ?_, hstatus, hcmd, hfinfo, hF, hB⟩
  rw [State.readLoc, hctrl, Ctrl.word_written]

/-! ### Reset -/

theorem sameUnit_resetUnit (s : State) : SameUnit State.reset s.resetUnit :=
  ⟨fun _ => rfl, fun _ => rfl, rfl, rfl, rfl, rfl⟩

/-- Settles O53: with bit 31 set the effect of the write is `resetUnit`, and it is never held. -/
theorem softReset : Obligations.SoftReset := by
  intro s v rest hv hh
  obtain ⟨hunit, hdone⟩ := hostStep_write_control (l := .ctrl) rfl rfl (by decide) hh
  rw [State.writeLoc, s.writeCtrl_of_srst hv] at hunit
  exact ⟨(sameUnit_resetUnit s).trans hunit, hdone⟩

theorem irq_congr {s t : State} (h : SameUnit s t) : t.irq = s.irq := by
  rw [State.irq, State.irq, h.status, h.ctrl]

/-- Settles O52: the reset values are those of every state whose unit is as at reset. -/
theorem resetValues : Obligations.ResetValues := by
  intro s u hu
  have hunit : SameUnit State.reset u := by
    simp only [List.mem_cons, List.not_mem_nil, or_false] at hu
    obtain rfl | rfl := hu
    · exact sameUnit_resetUnit State.reset
    · exact sameUnit_resetUnit s
  refine ⟨fun r i => ?_, fun r j _ => ?_, hunit.cmd, ?_, ?_, hunit.finfo, rfl, irq_congr hunit⟩
  · rw [hunit.f, State.reset_readF, Ten.get_replicate]
  · rw [hunit.b, State.reset_readB]
    simp [byteOf]
  · rw [State.readLoc, hunit.status]; rfl
  · rw [State.readLoc, hunit.ctrl]; rfl

end Sys2Proof.Machine
end

section
/-! SUPPORT. The map of the window (R50, R56 to R59): where each word is, and what each region of offsets names. -/

namespace Sys2Proof.Machine

/-! ### Where a word is -/

theorem offset_bWord_toNat (r : BReg) (w : Fin 8) :
    (Loc.bWord r w).offset.toNat = 0x100 + 0x20 * r.val + 4 * w.val := by
  rw [Loc.offset, BitVec.toNat_ofNat]
  omega

theorem offset_fHalf_toNat (r : FReg) (i : Fin 10) (high : Bool) :
    (Loc.fHalf r i high).offset.toNat = 0x800 + 0x80 * r.val + 8 * i.val + if high then 4 else 0 := by
  rw [Loc.offset, BitVec.toNat_ofNat]
  split <;> omega

/-! ### What an offset names, region by region -/

theorem locate_of_misaligned {off : Offset} (h4 : off.toNat % 4 ≠ 0) : locate off = none := if_pos h4

theorem locate_of_control {off : Offset} (h4 : off.toNat % 4 = 0) (h : off.toNat < 0x100) :
    locate off = locateControl off.toNat := by
  simp [locate, h4, h]

theorem locate_of_bWindow {off : Offset} (h4 : off.toNat % 4 = 0) (h : 0x100 ≤ off.toNat) (h' : off.toNat < 0x180) :
    locate off = some (locateB (off.toNat - 0x100)) := by
  simp [locate, h4, h', Nat.not_lt.mpr h]

theorem locate_of_gap {off : Offset} (h : 0x180 ≤ off.toNat) (h' : off.toNat < 0x800) : locate off = none := by
  by_cases h4 : off.toNat % 4 = 0
  · simp [locate, h4, h', show ¬ off.toNat < 0x100 by omega, show ¬ off.toNat < 0x180 by omega]
  · exact locate_of_misaligned h4

theorem locate_of_fWindow {off : Offset} (h4 : off.toNat % 4 = 0) (h : 0x800 ≤ off.toNat) :
    locate off = locateF (off.toNat - 0x800) := by
  simp only [locate]
  rw [if_neg (by omega), if_neg (by omega), if_neg (by omega), if_neg (by omega)]

/-! ### Which offsets are reserved -/

theorem locateControl_eq_none_iff {n : Nat} (h4 : n % 4 = 0) : locateControl n = none ↔ 0x014 ≤ n := by
  unfold locateControl
  split
  case h_6 =>
    exact iff_of_true rfl (by simp only [imp_false] at *; omega)
  all_goals exact iff_of_false (Option.some_ne_none _) (by decide)

theorem locateF_eq_none_iff (n : Nat) : locateF n = none ↔ 0x50 ≤ n % 0x80 := by
  unfold locateF
  split
  · exact iff_of_false (Option.some_ne_none _) (by omega)
  · exact iff_of_true rfl (by omega)

/-- An offset names no word exactly when it is misaligned (R59) or in a range that R58 reserves. -/
theorem locate_eq_none_iff (off : Offset) :
    locate off = none ↔
      off.toNat % 4 ≠ 0 ∨ (0x014 ≤ off.toNat ∧ off.toNat ≤ 0x0FF) ∨ (0x180 ≤ off.toNat ∧ off.toNat ≤ 0x7FF) ∨
        (0x800 ≤ off.toNat ∧ 0x50 ≤ (off.toNat - 0x800) % 0x80) := by
  by_cases h4 : off.toNat % 4 = 0
  · obtain h | ⟨h, h'⟩ | ⟨h, h'⟩ | h : off.toNat < 0x100 ∨ (0x100 ≤ off.toNat ∧ off.toNat < 0x180) ∨
        (0x180 ≤ off.toNat ∧ off.toNat < 0x800) ∨ 0x800 ≤ off.toNat := by omega
    · rw [locate_of_control h4 h, locateControl_eq_none_iff h4]
      omega
    · rw [locate_of_bWindow h4 h h']
      exact iff_of_false (Option.some_ne_none _) (by omega)
    · exact iff_of_true (locate_of_gap h h') (by omega)
    · rw [locate_of_fWindow h4 h, locateF_eq_none_iff]
      omega
  · exact iff_of_true (locate_of_misaligned h4) (.inl h4)

/-! ### The map and back -/

theorem locateB_bWord (r : BReg) (w : Fin 8) : locateB (0x20 * r.val + 4 * w.val) = .bWord r w := by
  simp only [locateB, Fin.ofNat, Loc.bWord.injEq, Fin.ext_iff]
  omega

theorem locateF_fHalf (r : FReg) (i : Fin 10) (high : Bool) :
    locateF (0x80 * r.val + 8 * i.val + if high then 4 else 0) = some (.fHalf r i high) := by
  rw [locateF, if_pos (by split <;> omega)]
  simp only [Fin.ofNat, Option.some.injEq, Loc.fHalf.injEq, Fin.ext_iff]
  refine ⟨by split <;> omega, by split <;> omega, ?_⟩
  cases high with
  | false => simp only [Bool.false_eq_true, if_false, beq_eq_false_iff_ne]; omega
  | true => simp only [if_true, beq_iff_eq]; omega

/-- The offset of a word names that word (R50, R56, R57). -/
theorem locate_offset (l : Loc) : locate l.offset = some l := by
  cases l with
  | cmd => rfl
  | status => rfl
  | ctrl => rfl
  | finfo => rfl
  | id => rfl
  | bWord r w =>
    have hoff := offset_bWord_toNat r w
    rw [locate_of_bWindow (by omega) (by omega) (by omega), hoff, Nat.add_assoc, Nat.add_sub_cancel_left,
      locateB_bWord]
  | fHalf r i high =>
    have hoff := offset_fHalf_toNat r i high
    have h4 : (Loc.fHalf r i high).offset.toNat % 4 = 0 := by rw [hoff]; split <;> omega
    rw [locate_of_fWindow h4 (by omega), hoff, Nat.add_assoc, Nat.add_assoc, Nat.add_sub_cancel_left,
      ← Nat.add_assoc, locateF_fHalf]

/-- Settles O39: `Loc.offset` and `locate` are inverse, and `locate_eq_none_iff`. -/
theorem windowMap : Obligations.WindowMap :=
  ⟨locate_offset, fun _ _ => offset_of_locate, locate_eq_none_iff⟩

end Sys2Proof.Machine
end

section
/-! SUPPORT. The words of the data windows as runs of bits of their registers (R56, R57), and that a write of a word of
the window touches no other word (R62). -/

namespace Sys2Proof.Machine

/-! ### Bytes and words of a byte register -/

/-- A word is its four bytes, the lowest-numbered first (R54). -/
theorem word_toNat_eq_bytes (v : Word) :
    v.toNat = (v.extractLsb' 0 8).toNat + (v.extractLsb' 8 8).toNat * 2 ^ 8 + (v.extractLsb' 16 8).toNat * 2 ^ 16 +
      (v.extractLsb' 24 8).toNat * 2 ^ 24 := by
  simp only [BitVec.extractLsb'_toNat, Nat.shiftRight_eq_div_pow]
  omega

theorem extractLsb'_wordOf (b : Bytes32) (w : Fin 8) {k : Nat} (hk : k < 4) :
    (wordOf b w).extractLsb' (8 * k) 8 = byteOf b (4 * w.val + k) := by
  apply BitVec.eq_of_getLsbD_eq
  intro n hn
  have hlt : 8 * k + n < 32 := by omega
  have hsum : 32 * w.val + (8 * k + n) = 8 * (4 * w.val + k) + n := by omega
  simp only [wordOf, byteOf, BitVec.getLsbD_extractLsb', hn, hlt, hsum, decide_true, Bool.true_and]

theorem wordOf_toNat_eq_bytes (b : Bytes32) (w : Fin 8) :
    (wordOf b w).toNat =
      (byteOf b (4 * w.val)).toNat + (byteOf b (4 * w.val + 1)).toNat * 2 ^ 8 +
      (byteOf b (4 * w.val + 2)).toNat * 2 ^ 16 + (byteOf b (4 * w.val + 3)).toNat * 2 ^ 24 := by
  have h0 : (wordOf b w).extractLsb' 0 8 = byteOf b (4 * w.val) := extractLsb'_wordOf b w (k := 0) (by decide)
  have h1 := extractLsb'_wordOf b w (k := 1) (by decide)
  have h2 := extractLsb'_wordOf b w (k := 2) (by decide)
  have h3 := extractLsb'_wordOf b w (k := 3) (by decide)
  rw [word_toNat_eq_bytes, h0, h1, h2, h3]

/-- A write of a word replaces its four bytes and keeps the other 28 (R56). -/
theorem byteOf_setWord (b : Bytes32) (w : Fin 8) (v : Word) {j : Nat} (hj : j < 32) :
    byteOf (setWord b w v) j =
      if 4 * w.val ≤ j ∧ j < 4 * w.val + 4 then v.extractLsb' (8 * (j - 4 * w.val)) 8 else byteOf b j := by
  split
  · rw [byteOf, setWord, extractLsb'_replaceBits_inside _ _ _ _ _ (by omega) (by omega) (by omega)]
    congr 1
    omega
  · exact extractLsb'_replaceBits_disjoint b (32 * w.val) v (8 * j) 8 (by omega) (by omega)

/-- The low `k` words of a byte register are its integer modulo `2^(32k)` (R9). -/
theorem sum_words_eq_mod (b : Bytes32) (k : Nat) :
    ∑ x ∈ Finset.range k, (b.extractLsb' (32 * x) 32).toNat * 2 ^ (32 * x) = le256 b % 2 ^ (32 * k) := by
  induction k with
  | zero => simp [Nat.mod_one]
  | succ k ih =>
    rw [Finset.sum_range_succ, ih, BitVec.extractLsb'_toNat, Nat.shiftRight_eq_div_pow, Nat.mul_succ, Nat.pow_add,
      Nat.mod_mul, Nat.mul_comm (2 ^ (32 * k)), le256]

theorem le256_eq_sum_words (b : Bytes32) : le256 b = ∑ x : Fin 8, (wordOf b x).toNat * 2 ^ (32 * x.val) := by
  have hlt : le256 b < 2 ^ (32 * 8) := b.isLt
  rw [← Nat.mod_eq_of_lt hlt, ← sum_words_eq_mod, Finset.sum_range]
  rfl

/-! ### Halves of a limb -/

@[simp] theorem halfBit_false : halfBit false = 0 := rfl
@[simp] theorem halfBit_true : halfBit true = 32 := rfl

/-- A half of a limb is 32 bits of its two's-complement pattern (R57). -/
theorem halfOf_toNat (l : Limb) (high : Bool) :
    ((halfOf l high).toNat : Int) = l.toInt / 2 ^ halfBit high % 2 ^ 32 := by
  rw [halfOf, BitVec.extractLsb'_toNat, Nat.shiftRight_eq_div_pow, BitVec.toInt_eq_toNat_cond]
  cases high with
  | false => rw [halfBit_false]; split <;> omega
  | true => rw [halfBit_true]; split <;> omega

theorem halfOf_eq_ofInt (l : Limb) (high : Bool) :
    halfOf l high = BitVec.ofInt 32 (l.toInt / 2 ^ halfBit high % 2 ^ 32) := by
  rw [← halfOf_toNat, BitVec.ofInt_natCast, BitVec.ofNat_toNat, BitVec.setWidth_eq]

/-- Two limbs with the same halves are equal. -/
theorem limb_ext_halves {l l' : Limb} (h : ∀ high, halfOf l high = halfOf l' high) : l = l' := by
  have hlo := congrArg BitVec.toNat (h false)
  have hhi := congrArg BitVec.toNat (h true)
  simp only [halfOf, halfBit_false, halfBit_true, BitVec.extractLsb'_toNat, Nat.shiftRight_eq_div_pow] at hlo hhi
  apply BitVec.eq_of_toNat_eq
  have := l.isLt
  have := l'.isLt
  omega

/-! ### A write of a word and the other words -/

theorem readLoc_congr {s t : State} (h : SameUnit s t) (l : Loc) : t.readLoc l = s.readLoc l := by
  cases l with
  | cmd => exact h.cmd
  | status => exact congrArg Status.word h.status
  | ctrl => exact congrArg Ctrl.word h.ctrl
  | finfo => exact h.finfo
  | id => rfl
  | bWord r w => exact congrArg (wordOf · w) (h.b r)
  | fHalf r i high => exact congrArg (fun x : Fe => halfOf (x.get i) high) (h.f r)

theorem readB_writeLoc_bWord (s : State) (r r' : BReg) (w : Fin 8) (v : Word) :
    (s.writeLoc v (.bWord r w)).readB r' = if r' = r then setWord (s.readB r) w v else s.readB r' :=
  s.readB_writeB r r' _

/-- A write of half a limb replaces that half and no other limb (R57). -/
theorem readF_get_writeLoc_fHalf (s : State) (r r' : FReg) (i j : Fin 10) (high : Bool) (v : Word) :
    ((s.writeLoc v (.fHalf r i high)).readF r').get j =
      if r' = r ∧ j = i then setHalf ((s.readF r).get i) high v else (s.readF r').get j := by
  rw [State.writeLoc, State.readF_writeF]
  by_cases hr : r' = r
  · subst hr
    simp only [if_true, true_and, Ten.get_set]
  · simp only [hr, if_false, false_and]

/-- A word of the B or F window reads as written. -/
theorem readLoc_writeLoc_same (s : State) {l : Loc} (v : Word) (hdata : l.isData = true) :
    (s.writeLoc v l).readLoc l = v := by
  cases l with
  | cmd => cases hdata
  | status => cases hdata
  | ctrl => cases hdata
  | finfo => cases hdata
  | id => cases hdata
  | bWord r w => rw [State.readLoc, readB_writeLoc_bWord, if_pos rfl, wordOf_setWord, if_pos rfl]
  | fHalf r i high => rw [State.readLoc, readF_get_writeLoc_fHalf, if_pos ⟨rfl, rfl⟩, halfOf_setHalf, if_pos rfl]

theorem readLoc_writeLoc_bWord_of_ne (s : State) (r : BReg) (w : Fin 8) (v : Word) {l : Loc} (h : l ≠ .bWord r w) :
    (s.writeLoc v (.bWord r w)).readLoc l = s.readLoc l := by
  cases l with
  | bWord r' w' =>
    rw [State.readLoc, State.readLoc, readB_writeLoc_bWord]
    split
    next hr =>
      subst hr
      rw [wordOf_setWord, if_neg fun hw => h (by rw [hw])]
    next => rfl
  | cmd => rfl
  | status => rfl
  | ctrl => rfl
  | finfo => rfl
  | id => rfl
  | fHalf r' i high => rfl

theorem readLoc_writeLoc_fHalf_of_ne (s : State) (r : FReg) (i : Fin 10) (high : Bool) (v : Word) {l : Loc}
    (h : l ≠ .fHalf r i high) : (s.writeLoc v (.fHalf r i high)).readLoc l = s.readLoc l := by
  cases l with
  | fHalf r' j high' =>
    rw [State.readLoc, State.readLoc, readF_get_writeLoc_fHalf]
    split
    next hpos =>
      obtain ⟨rfl, rfl⟩ := hpos
      rw [halfOf_setHalf, if_neg fun hhigh => h (by rw [hhigh])]
    next => rfl
  | cmd => rfl
  | status => rfl
  | ctrl => rfl
  | finfo => rfl
  | id => rfl
  | bWord r' w => rfl

/-- After a write of a word of the B or F window every other word of the window reads as before. -/
theorem readLoc_writeLoc_of_ne (s : State) {l l' : Loc} (v : Word) (hdata : l.isData = true) (h : l' ≠ l) :
    (s.writeLoc v l).readLoc l' = s.readLoc l' := by
  cases l with
  | cmd => cases hdata
  | status => cases hdata
  | ctrl => cases hdata
  | finfo => cases hdata
  | id => cases hdata
  | bWord r w => exact readLoc_writeLoc_bWord_of_ne s r w v h
  | fHalf r i high => exact readLoc_writeLoc_fHalf_of_ne s r i high v h

/-- Settles O42: the two facts about a write of a data word. -/
theorem windowReadsLastWrite : Obligations.WindowReadsLastWrite :=
  fun s _ v hdata => ⟨readLoc_writeLoc_same s v hdata, fun _ h => readLoc_writeLoc_of_ne s v hdata h⟩

/-- Settles O40: a word is a run of bits of its register, and the B window has no reserved offset. -/
theorem bWindowWord : Obligations.BWindowWord := by
  intro s r w v
  refine ⟨offset_bWord_toNat r w, wordOf_toNat_eq_bytes _ w, fun j hj => ?_, le256_eq_sum_words _,
    fun off h h' h4 => ⟨_, _, locate_of_bWindow h4 h h'⟩⟩
  rw [readB_writeLoc_bWord, if_pos rfl, byteOf_setWord _ w v hj]

/-- Writing both halves of a limb, in either order, loads it (R57). -/
theorem writeLoc_both_halves (s : State) (r : FReg) (i : Fin 10) (x : Limb) (high : Bool) :
    (((s.writeLoc (halfOf x high) (.fHalf r i high)).writeLoc (halfOf x !high) (.fHalf r i !high)).readF r).get i =
      x := by
  refine limb_ext_halves fun high' => ?_
  change State.readLoc _ (.fHalf r i high') = _
  obtain rfl | rfl : high' = high ∨ high' = !high := by cases high <;> cases high' <;> simp
  · rw [readLoc_writeLoc_of_ne _ _ rfl (by simp), readLoc_writeLoc_same s _ rfl]
  · exact readLoc_writeLoc_same _ _ rfl

theorem locate_of_slotGap (r : FReg) {off : Offset} (h : 0x800 + 0x80 * r.val + 0x50 ≤ off.toNat)
    (h' : off.toNat ≤ 0x800 + 0x80 * r.val + 0x7F) : locate off = none :=
  (locate_eq_none_iff off).mpr (.inr (.inr (.inr (by omega))))

/-- Settles O41: a half is a run of bits of its limb, and a limb is its two halves. -/
theorem fWindowHalf : Obligations.FWindowHalf := by
  intro s r i v x
  have hlo : BitVec.ofInt 32 (x.toInt % 2 ^ 32) = halfOf x false := by
    rw [halfOf_eq_ofInt]; simp
  have hhi : BitVec.ofInt 32 (x.toInt / 2 ^ 32 % 2 ^ 32) = halfOf x true := (halfOf_eq_ofInt x true).symm
  refine ⟨offset_fHalf_toNat r i false, offset_fHalf_toNat r i true, ?_, halfOf_toNat _ true,
    readLoc_writeLoc_of_ne s v rfl (by simp), readLoc_writeLoc_of_ne s v rfl (by simp),
    fun high => ⟨readLoc_writeLoc_same s v rfl, fun r' j hne => ?_⟩, fun off => locate_of_slotGap r, ?_⟩
  · rw [State.readLoc, halfOf_toNat]; simp
  · rw [readF_get_writeLoc_fHalf, if_neg fun ⟨hr, hj⟩ => hne (by rw [hr, hj])]
  · simp only [hlo, hhi]
    exact ⟨writeLoc_both_halves s r i x false, writeLoc_both_halves s r i x true⟩

end Sys2Proof.Machine
end

section
/-! SUPPORT. The host's access to the window: when it is held (R60), what it answers (R52, R53), and that an access that
names no word changes nothing (R58, R59; log entry 4). -/

namespace Sys2Proof.Machine

theorem hostStep_of_held {s : State} {x : Txn} {rest : List Txn} (hh : s.host = x :: rest) (hx : s.holds x = true) :
    s.hostStep = s := by
  simp [State.hostStep, hh, hx]

theorem hostStep_of_not_held {s : State} {x : Txn} {rest : List Txn} (hh : s.host = x :: rest)
    (hx : s.holds x = false) : s.hostStep = s.doTxn x rest := by
  simp [State.hostStep, hh, hx]

/-! ### When an access is held -/

theorem holds_rd (s : State) {off : Offset} {l : Loc} (hl : locate off = some l) :
    s.holds (.rd .w32 off) = (s.status.busy && l.isData) := by
  simp [State.holds, target, hl]

theorem holds_wr (s : State) {off : Offset} {l : Loc} (v : Word) (hl : locate off = some l) :
    s.holds (.wr .w32 off v) = (s.status.busy && (l.isData || (l == .cmd && !s.status.fault))) := by
  simp [State.holds, target, hl]

/-! ### Accesses without an effect on the unit -/

/-- A transaction that leaves the unit alone is only taken off the list and answered. -/
theorem doTxn_of_perform {s : State} {x : Txn} {rest : List Txn} {r : Response}
    (h : ({ s with host := rest } : State).perform x = ({ s with host := rest }, r)) :
    SameUnit s (s.doTxn x rest) ∧ TxnDone s (s.doTxn x rest) rest r := by
  rw [State.doTxn, h]
  exact ⟨⟨fun _ => rfl, fun _ => rfl, rfl, rfl, rfl, rfl⟩, ⟨rfl, rfl, rfl⟩⟩

theorem readLoc_host (s : State) (host : List Txn) (l : Loc) :
    ({ s with host := host } : State).readLoc l = s.readLoc l :=
  readLoc_congr ⟨fun _ => rfl, fun _ => rfl, rfl, rfl, rfl, rfl⟩ l

/-- The host's read of an implemented word, not held: the unit is unchanged, the response is the word (R52). -/
theorem hostStep_read {s : State} {off : Offset} {l : Loc} {rest : List Txn} (hl : locate off = some l)
    (hh : s.host = .rd .w32 off :: rest) (hx : s.holds (.rd .w32 off) = false) :
    SameUnit s s.hostStep ∧ TxnDone s s.hostStep rest (.okValue (s.readLoc l)) := by
  rw [hostStep_of_not_held hh hx]
  apply doTxn_of_perform
  simp only [State.perform, target, hl, readLoc_host]

theorem target_eq_none {width : Width} {off : Offset} (h : width ≠ .w32 ∨ locate off = none) :
    target width off = none := by
  cases width with
  | w32 => simpa [target] using h
  | w8 => rfl
  | w16 => rfl
  | w64 => rfl

/-- An access that names no word is never held, changes nothing in the unit and answers `ERR` (R58, R59). -/
theorem hostStep_of_no_target {s : State} {width : Width} {off : Offset} {v : Word} {rest : List Txn}
    (ht : target width off = none) (hh : s.host = .rd width off :: rest ∨ s.host = .wr width off v :: rest) :
    SameUnit s s.hostStep ∧ TxnDone s s.hostStep rest .err := by
  obtain hh | hh := hh
  · rw [hostStep_of_not_held hh (by simp [State.holds, ht])]
    exact doTxn_of_perform (by simp [State.perform, ht])
  · rw [hostStep_of_not_held hh (by simp [State.holds, ht])]
    exact doTxn_of_perform (by simp [State.perform, ht])

/-! ### The statements -/

/-- Settles O43: the read is not held, and the unit that answers it is unchanged. -/
theorem hostReads : Obligations.HostReads := by
  intro s off l rest hl hfree hh
  have hx : s.holds (.rd .w32 off) = false := by
    rw [holds_rd s hl]
    cases hb : s.status.busy with
    | false => rfl
    | true => simpa using hfree hb
  obtain ⟨hunit, hdone⟩ := hostStep_read hl hh hx
  exact ⟨hunit, hdone, readLoc_congr hunit l⟩

/-- Settles O44: the write is not held while `BUSY` is 0, and its effect is `writeLoc` of a data word. -/
theorem hostWritesData : Obligations.HostWritesData := by
  intro s off v l rest hl hdata hb hh
  obtain ⟨hunit, hdone⟩ := hostStep_write hl hh (holds_of_idle hb _)
  refine ⟨hdone, ?_, fun l' hne => ?_⟩
  · rw [readLoc_congr hunit, readLoc_writeLoc_same s v hdata]
  · rw [readLoc_congr hunit, readLoc_writeLoc_of_ne s v hdata hne]

/-- Settles O45: such an access names no word of the window. -/
theorem errChangesNothing : Obligations.ErrChangesNothing := by
  intro s width off v rest hbad hh
  exact hostStep_of_no_target (target_eq_none (hbad.imp_right (locate_eq_none_iff off).mpr)) hh

/-- Settles O46: what is held is read off `holds` for each kind of word; in progress, `FAULT` is 0 by the invariant. -/
theorem holdWhileBusy : Obligations.HoldWhileBusy := by
  refine ⟨fun s off v rest l hi hb hl =>
    ⟨fun hdata hh => ?_, fun hcmd hh => ?_, fun hdata hh => ?_, fun hctl hh => ?_⟩, fun s x rest hb hh => ?_⟩
  · obtain hh | hh := hh
    · exact hostStep_of_held hh (by rw [holds_rd s hl, hb, hdata]; rfl)
    · exact hostStep_of_held hh (by rw [holds_wr s v hl, hb, hdata]; rfl)
  · obtain ⟨hbusy, -⟩ := hi
    obtain ⟨-, hfault⟩ := hbusy hb
    exact hostStep_of_held hh (by rw [holds_wr s v hl, hb, hcmd, hfault]; rfl)
  · obtain ⟨-, hdone⟩ := hostStep_read hl hh (by rw [holds_rd s hl, hdata, Bool.and_false])
    exact hdone.host
  · have hnotData : l.isData = false := by obtain rfl | rfl | rfl | rfl := hctl <;> rfl
    have hnotCmd : l ≠ .cmd := by obtain rfl | rfl | rfl | rfl := hctl <;> decide
    obtain ⟨-, hdone⟩ := hostStep_write_control hl hnotData hnotCmd hh
    exact hdone
  · rw [hostStep_of_not_held hh (holds_of_idle hb x), State.doTxn_host]

end Sys2Proof.Machine
end

section
/-! SUPPORT. The decoder and the encoder against each other and against the opcode table (R81 to R88): a word is built
from its fields, a row of the table is a condition on each field, and the decoder answers by those conditions. -/

namespace Sys2Proof

/-! ### A word from its fields -/

theorem wordR_of_fields {w : Word} {op d a b : Nat} (hop : (opField w).toNat = op) (hd : (dField w).toNat = d)
    (ha : (aField w).toNat = a) (hb : (bField w).toNat = b) (hlow : lowField w = 0) : wordR op d a b = w := by
  subst hop hd ha hb
  apply BitVec.eq_of_toNat_eq
  rw [wordR_toNat ⟨BitVec.isLt _, BitVec.isLt _, BitVec.isLt _, BitVec.isLt _⟩, word_of_fields w, hlow]
  simp

theorem wordI_of_fields {w : Word} {op d a : Nat} (hop : (opField w).toNat = op) (hd : (dField w).toNat = d)
    (ha : (aField w).toNat = a) : wordI op d a (immField w) = w := by
  subst hop hd ha
  apply BitVec.eq_of_toNat_eq
  rw [wordI_toNat ⟨BitVec.isLt _, BitVec.isLt _, BitVec.isLt _, BitVec.isLt _⟩, word_of_fields w,
    immField_of_fields, Nat.add_assoc _ _ (lowField w).toNat]

theorem immOk_immField (w : Word) : immOk (immField w) = true := decide_eq_true (BitVec.isLt _)

/-- `simp` writes a register number in a four-bit field this way. -/
@[simp] theorem fReg_ofFin (d : FReg) : fReg (BitVec.ofFin d) = d := rfl

/-- A must-be-zero field as the number the encoder writes there. -/
theorem toNat_of_eq_zero {x : BitVec 4} (h : x = 0#4) : x.toNat = 0 := by rw [h]; rfl

/-! ### Decoding and encoding -/

@[simp] theorem provided_eq_ok_iff {zeros : Bool} {i j : Instr} :
    provided zeros i = .ok j ↔ zeros = true ∧ i = j := by
  cases zeros <;> simp [provided]

@[simp] theorem provided_ne_reservedOpcode (zeros : Bool) (i : Instr) :
    provided zeros i ≠ .error .reservedOpcode := by
  cases zeros <;> simp [provided]

/-- Each field is read as it was written, and the must-be-zero bits are written as zero. -/
theorem decode_encode {i : Instr} (hwf : i.wf = true) : decode (encode i) = .ok i := by
  cases i with
  | nop => decide
  | setc d imm =>
    simp [decode, encode, wordI_fields (op := 1) (a := 0) ⟨by omega, d.isLt, by omega, of_decide_eq_true hwf⟩]
  | cpy d a => simp [decode, encode, wordR_fields (op := 2) (b := 0) ⟨by omega, d.isLt, a.isLt, by omega⟩]
  | add d a b => simp [decode, encode, wordR_fields (op := 3) ⟨by omega, d.isLt, a.isLt, b.isLt⟩]
  | sub d a b => simp [decode, encode, wordR_fields (op := 4) ⟨by omega, d.isLt, a.isLt, b.isLt⟩]
  | mul d a b => simp [decode, encode, wordR_fields (op := 5) ⟨by omega, d.isLt, a.isLt, b.isLt⟩]
  | sqr d a => simp [decode, encode, wordR_fields (op := 6) (b := 0) ⟨by omega, d.isLt, a.isLt, by omega⟩]
  | mulc d a imm =>
    simp [decode, encode, wordI_fields (op := 7) ⟨by omega, d.isLt, a.isLt, of_decide_eq_true hwf⟩]
  | inv d a => simp [decode, encode, wordR_fields (op := 8) (b := 0) ⟨by omega, d.isLt, a.isLt, by omega⟩]
  | smul d a b =>
    simp [decode, encode, wordR_fields (op := 9) (b := b) ⟨by omega, d.isLt, a.isLt, by omega⟩]
  | unpack d a =>
    simp [decode, encode, wordR_fields (op := 10) (a := a) (b := 0) ⟨by omega, d.isLt, by omega, by omega⟩]
  | pack d a =>
    simp [decode, encode, wordR_fields (op := 11) (d := d) (b := 0) ⟨by omega, by omega, a.isLt, by omega⟩]
  | clamp d a =>
    simp [decode, encode,
      wordR_fields (op := 12) (d := d) (a := a) (b := 0) ⟨by omega, by omega, by omega, by omega⟩]

/-- Row by row, the fields the decoder's answer carries and the zeros it has checked make up the whole word. -/
theorem wf_and_encode_of_decode {w : Word} {i : Instr} (h : decode w = .ok i) : i.wf = true ∧ encode i = w := by
  unfold decode at h
  split at h
  all_goals
    rename_i hop
    simp only [provided_eq_ok_iff, Bool.and_eq_true, beq_iff_eq, Except.ok.injEq, reduceCtorEq] at h
  · -- NOP
    obtain ⟨⟨⟨⟨hd, ha⟩, hb⟩, hlow⟩, rfl⟩ := h
    exact ⟨rfl, wordR_of_fields hop (toNat_of_eq_zero hd) (toNat_of_eq_zero ha) (toNat_of_eq_zero hb) hlow⟩
  · -- SETC
    obtain ⟨ha, rfl⟩ := h
    exact ⟨immOk_immField w, wordI_of_fields hop rfl (toNat_of_eq_zero ha)⟩
  · -- CPY
    obtain ⟨⟨hb, hlow⟩, rfl⟩ := h
    exact ⟨rfl, wordR_of_fields hop rfl rfl (toNat_of_eq_zero hb) hlow⟩
  · -- ADD
    obtain ⟨hlow, rfl⟩ := h
    exact ⟨rfl, wordR_of_fields hop rfl rfl rfl hlow⟩
  · -- SUB
    obtain ⟨hlow, rfl⟩ := h
    exact ⟨rfl, wordR_of_fields hop rfl rfl rfl hlow⟩
  · -- MUL
    obtain ⟨hlow, rfl⟩ := h
    exact ⟨rfl, wordR_of_fields hop rfl rfl rfl hlow⟩
  · -- SQR
    obtain ⟨⟨hb, hlow⟩, rfl⟩ := h
    exact ⟨rfl, wordR_of_fields hop rfl rfl (toNat_of_eq_zero hb) hlow⟩
  · -- MULC
    obtain rfl := h
    exact ⟨immOk_immField w, wordI_of_fields hop rfl rfl⟩
  · -- INV
    obtain ⟨⟨hb, hlow⟩, rfl⟩ := h
    exact ⟨rfl, wordR_of_fields hop rfl rfl (toNat_of_eq_zero hb) hlow⟩
  · -- SMUL
    obtain ⟨⟨hB, hlow⟩, rfl⟩ := h
    exact ⟨rfl, wordR_of_fields hop rfl rfl (bReg_val _ hB).symm hlow⟩
  · -- UNPACK
    obtain ⟨⟨⟨hA, hb⟩, hlow⟩, rfl⟩ := h
    exact ⟨rfl, wordR_of_fields hop rfl (bReg_val _ hA).symm (toNat_of_eq_zero hb) hlow⟩
  · -- PACK
    obtain ⟨⟨⟨hD, hb⟩, hlow⟩, rfl⟩ := h
    exact ⟨rfl, wordR_of_fields hop (bReg_val _ hD).symm rfl (toNat_of_eq_zero hb) hlow⟩
  · -- CLAMP
    obtain ⟨⟨⟨⟨hD, hA⟩, hb⟩, hlow⟩, rfl⟩ := h
    exact ⟨rfl, wordR_of_fields hop (bReg_val _ hD).symm (bReg_val _ hA).symm (toNat_of_eq_zero hb) hlow⟩

theorem decode_eq_reservedOpcode_iff (w : Word) :
    decode w = .error .reservedOpcode ↔ 0xD ≤ (opField w).toNat := by
  unfold decode
  split
  case h_14 =>
    simp only [true_iff, imp_false] at *
    omega
  all_goals
    rename_i hop
    simp [hop]

/-! ### The opcode table -/

/-- A mask and a match value are compared field by field. -/
theorem fields_of_and_eq {w mask value : Word} (h : w &&& mask = value) :
    opField w &&& mask.extractLsb' 28 4 = value.extractLsb' 28 4 ∧
    dField w &&& mask.extractLsb' 24 4 = value.extractLsb' 24 4 ∧
    aField w &&& mask.extractLsb' 20 4 = value.extractLsb' 20 4 ∧
    bField w &&& mask.extractLsb' 16 4 = value.extractLsb' 16 4 ∧
    lowField w &&& mask.extractLsb' 0 16 = value.extractLsb' 0 16 := by
  subst h
  simp only [opField, dField, aField, bField, lowField, BitVec.extractLsb'_and, and_self]

/-- Over a field, a mask of ones keeps it, and `0xC` keeps the two bits that are 0 where a B register is named (R85). -/
theorem and_field_masks : (∀ x : BitVec 4, x &&& 0xF#4 = x) ∧ (∀ x : BitVec 16, x &&& 0xFFFF#16 = x) ∧
    (∀ x : BitVec 4, x &&& 0xC#4 = 0#4 ↔ namesB x = true) :=
  ⟨by decide, fun _ => BitVec.and_allOnes, by decide⟩

/-- The word of a well-formed command matches the command's row. -/
theorem encode_matches_row : ∀ i : Instr, Laws.OwnRow.Statement i
  | .nop => Laws.OwnRow.nop
  | .setc d imm => Laws.OwnRow.setc d imm
  | .cpy d a => Laws.OwnRow.cpy d a
  | .add d a b => Laws.OwnRow.add d a b
  | .sub d a b => Laws.OwnRow.sub d a b
  | .mul d a b => Laws.OwnRow.mul d a b
  | .sqr d a => Laws.OwnRow.sqr d a
  | .mulc d a imm => Laws.OwnRow.mulc d a imm
  | .inv d a => Laws.OwnRow.inv d a
  | .smul d a b => Laws.OwnRow.smul d a b
  | .unpack d a => Laws.OwnRow.unpack d a
  | .pack d a => Laws.OwnRow.pack d a
  | .clamp d a => Laws.OwnRow.clamp d a

theorem matches_row_of_decode {w : Word} {i : Instr} (h : decode w = .ok i) : w &&& i.row.mask = i.row.value := by
  obtain ⟨hwf, rfl⟩ := wf_and_encode_of_decode h
  exact encode_matches_row i hwf

/-- The fields a row fixes are the ones the decoder tests for it; the others are free, so the command found is `i` with
the operands of `w`. (The rows are written out first: `rfl` would otherwise compare the operands.) -/
theorem decode_of_matches_row {w : Word} {i : Instr} (h : w &&& i.row.mask = i.row.value) :
    ∃ j, decode w = .ok j ∧ j.row = i.row := by
  have hrow := fields_of_and_eq h
  cases i
  all_goals
    simp only [Instr.row] at hrow ⊢
    simp only [BitVec.reduceExtractLsb', and_field_masks, BitVec.and_zero, true_and] at hrow
  case nop => exact ⟨.nop, by simp [decode, hrow], rfl⟩
  case setc => exact ⟨.setc (fReg (dField w)) (immField w), by simp [decode, hrow], rfl⟩
  case cpy => exact ⟨.cpy (fReg (dField w)) (fReg (aField w)), by simp [decode, hrow], rfl⟩
  case add => exact ⟨.add (fReg (dField w)) (fReg (aField w)) (fReg (bField w)), by simp [decode, hrow], rfl⟩
  case sub => exact ⟨.sub (fReg (dField w)) (fReg (aField w)) (fReg (bField w)), by simp [decode, hrow], rfl⟩
  case mul => exact ⟨.mul (fReg (dField w)) (fReg (aField w)) (fReg (bField w)), by simp [decode, hrow], rfl⟩
  case sqr => exact ⟨.sqr (fReg (dField w)) (fReg (aField w)), by simp [decode, hrow], rfl⟩
  case mulc => exact ⟨.mulc (fReg (dField w)) (fReg (aField w)) (immField w), by simp [decode, hrow], rfl⟩
  case inv => exact ⟨.inv (fReg (dField w)) (fReg (aField w)), by simp [decode, hrow], rfl⟩
  case smul => exact ⟨.smul (fReg (dField w)) (fReg (aField w)) (bReg (bField w)), by simp [decode, hrow], rfl⟩
  case unpack => exact ⟨.unpack (fReg (dField w)) (bReg (aField w)), by simp [decode, hrow], rfl⟩
  case pack => exact ⟨.pack (bReg (dField w)) (fReg (aField w)), by simp [decode, hrow], rfl⟩
  case clamp => exact ⟨.clamp (bReg (dField w)) (bReg (aField w)), by simp [decode, hrow], rfl⟩

/-- The two directions of R85, read contrapositively (R88). -/
theorem decode_error_iff_no_row (w : Word) :
    (∃ e, decode w = .error e) ↔ ∀ i : Instr, w &&& i.row.mask ≠ i.row.value := by
  constructor
  · rintro ⟨e, he⟩ i hmatch
    obtain ⟨j, hj, -⟩ := decode_of_matches_row hmatch
    cases he.symm.trans hj
  · intro hnone
    cases hdec : decode w with
    | ok i => exact absurd (matches_row_of_decode hdec) (hnone i)
    | error e => exact ⟨e, rfl⟩

/-! ### The statements -/

/-- Settles O3: each field is read as it was written. -/
theorem decodeEncode : Obligations.DecodeEncode := fun _ => decode_encode

/-- Settles O4: the fields and the zeros the decoder has read make up the word. -/
theorem encodeDecode : Obligations.EncodeDecode := fun _ _ => wf_and_encode_of_decode

/-- Settles O5: masks are compared field by field, and the fields a row fixes are the ones the decoder tests. -/
theorem decodeMatchesTable : Obligations.DecodeMatchesTable := fun w =>
  ⟨fun _ => matches_row_of_decode, fun _ => decode_of_matches_row, decode_error_iff_no_row w,
    by simp [decode_eq_reservedOpcode_iff, opField_toNat]⟩

/-- Settles O1: the encoder's word is computed, and the decoder reads back what was encoded. -/
theorem workedEncodings : Obligations.WorkedEncodings := by
  intro e he
  have ⟨hwf, henc⟩ : e.1.wf = true ∧ encode e.1 = e.2 := by revert e; decide
  exact ⟨henc, henc ▸ decode_encode hwf⟩

/-- Settles O2: the refusals are computed; a legal neighbour is the word of a well-formed command. -/
theorem illegalWordExamples : Obligations.IllegalWordExamples := by
  refine ⟨by decide, fun e he => ?_⟩
  have ⟨hwf, henc⟩ : e.1.wf = true ∧ encode e.1 = e.2 := by revert e; decide
  exact henc ▸ decode_encode hwf

namespace Machine

theorem step_of_unit_turn {s : State} (h : s.turn = .unit) : step s = completeStep s.taken := by
  rw [step, h]

theorem completeStep_of_decode {s : State} {i : Instr} (hb : s.status.busy = true) (hd : decode s.cmd = .ok i) :
    completeStep s = exec i s := by
  rw [completeStep, if_pos hb, hd]

theorem sameUnit_taken (s : State) : SameUnit s s.taken := ⟨fun _ => rfl, fun _ => rfl, rfl, rfl, rfl, rfl⟩

/-- Settles O6: taking the turn changes neither `BUSY` nor `CMD`. -/
theorem stepRunsDecodedCommand : Obligations.StepRunsDecodedCommand := by
  intro s i hturn hb hd
  refine ⟨?_, sameUnit_taken s, s.taken_host, s.taken_responses, s.taken_schedule⟩
  rw [step_of_unit_turn hturn]
  exact completeStep_of_decode hb hd

end Machine

end Sys2Proof
end

section
/-! SUPPORT. The field commands that move limbs or work limb by limb: NOP, SETC, CPY, ADD, SUB (R121 to R125), and what
the end of a command whose function answers for an F register says about that function. -/

namespace Sys2Proof.Machine

/-! ### A command and its function -/

theorem exec_next_of_ok {i : Instr} {s : State} {d : FReg} {r : Result Fe} {v : Fe}
    (hi : exec i s = .next (s.commitF d r)) (hr : r = .ok v) :
    ∃ t, exec i s = .next t ∧ WroteF d s t ∧ t.readF d = v := by
  subst hr
  exact ⟨_, hi, wroteF_complete s d v, by simp⟩

theorem ok_of_exec_without_fault {i : Instr} {s t : State} {d : FReg} {r : Result Fe}
    (hi : exec i s = .next (s.commitF d r)) (ht : exec i s = .next t) (hf : t.status.fault = false) :
    r = .ok (t.readF d) := by
  obtain rfl : s.commitF d r = t := by rw [hi] at ht; exact Host.Outcome.next.inj ht
  cases r with
  | ok v => simp
  | error c => simp at hf

/-! ### Moves and constants -/

theorem completed_complete (s : State) : Completed s s.complete :=
  ⟨rfl, rfl, rfl, rfl, rfl, rfl, rfl, ⟨rfl, rfl, rfl⟩⟩

/-- Settles O11: NOP is the bare end of a command. -/
theorem nopCompletes : Obligations.NopCompletes :=
  ⟨by decide, fun s => ⟨_, rfl, completed_complete s, fun _ => rfl, fun _ => rfl⟩⟩

/-- Settles O12: an immediate fits a limb, so the stored constant reads back as it is. -/
theorem setcCompletes : Obligations.SetcCompletes := by
  intro d imm s himm
  obtain ⟨t, ht, hw, hd⟩ := exec_next_of_ok (i := .setc d imm) (s := s) rfl rfl
  refine ⟨t, ht, hw, fun i => ?_⟩
  rw [hd]
  exact toInt_feConst imm ((of_decide_eq_true himm).trans (by norm_num)) i

/-- Settles O13: CPY's function answers on every vector. -/
theorem cpyCompletes : Obligations.CpyCompletes := fun _ _ _ => exec_next_of_ok rfl rfl

/-! ### The represented integer -/

theorem weighted_get (r : Ten Int) : weighted r.get = valInts r := by
  simp [weighted, valInts_eq, Fin.sum_univ_succ, Ten.get, add_assoc]

theorem val_eq_weighted (f : Fe) : val f = weighted (ints f).get := (weighted_get _).symm

/-! ### Limb-wise arithmetic -/

theorem ints_of_ifFits {r : Ten Int} {v : Fe} (h : ifFits r = .ok v) : ints v = r := by
  rw [ifFits] at h
  split at h
  case isTrue hfits =>
    cases h
    exact ints_narrow r fun i => (fitsInt64_iff _).mp ((Ten.all_iff _ _).mp hfits i)
  case isFalse => cases h

theorem val_of_feAdd {a b v : Fe} (h : feAdd a b = .ok v) : val v = val a + val b := by
  simp [val_eq_weighted, ints_of_ifFits h, weighted, add_mul, Finset.sum_add_distrib]

theorem val_of_feSub {a b v : Fe} (h : feSub a b = .ok v) : val v = val a - val b := by
  simp [val_eq_weighted, ints_of_ifFits h, weighted, sub_mul, Finset.sum_sub_distrib]

/-- Settles O14: ADD's function answers with the sums, and `val` is linear. -/
theorem addCompletes : Obligations.AddCompletes := by
  intro d a b s hfits
  obtain ⟨v, hv, hlimbs⟩ := feAdd_spec _ _ hfits
  obtain ⟨t, ht, hw, hd⟩ := exec_next_of_ok (i := .add d a b) (s := s) rfl hv
  subst hd
  exact ⟨t, ht, hw, hlimbs, val_of_feAdd hv⟩

/-- Settles O15: SUB's function answers with the differences, and `val` is linear. -/
theorem subCompletes : Obligations.SubCompletes := by
  intro d a b s hfits
  obtain ⟨v, hv, hlimbs⟩ := feSub_spec _ _ hfits
  obtain ⟨t, ht, hw, hd⟩ := exec_next_of_ok (i := .sub d a b) (s := s) rfl hv
  subst hd
  exact ⟨t, ht, hw, hlimbs, val_of_feSub hv⟩

end Sys2Proof.Machine
end

section
/-! SUPPORT. The carry pass against R116's loop: the model's written-out pass is the rule's, limb for limb, and keeps the
represented integer modulo `p`. -/

namespace Sys2Proof.Machine

/-! ### Limb for limb -/

/-- Each limb on its way through the loop is the raw limb with the loop's carry. -/
theorem get_carryIn (r : Ten Int) (k : Fin 10) : (carryIn r).get k = r.get k + carryBefore r.get k.val := by
  have h0 : (carryIn r).l0 = r.get 0 + carryBefore r.get 0 := (add_zero _).symm
  have h1 : (carryIn r).l1 = r.get 1 + carryBefore r.get 1 := congrArg (r.get 1 + hiPart 26 ·) h0
  have h2 : (carryIn r).l2 = r.get 2 + carryBefore r.get 2 := congrArg (r.get 2 + hiPart 25 ·) h1
  have h3 : (carryIn r).l3 = r.get 3 + carryBefore r.get 3 := congrArg (r.get 3 + hiPart 26 ·) h2
  have h4 : (carryIn r).l4 = r.get 4 + carryBefore r.get 4 := congrArg (r.get 4 + hiPart 25 ·) h3
  have h5 : (carryIn r).l5 = r.get 5 + carryBefore r.get 5 := congrArg (r.get 5 + hiPart 26 ·) h4
  have h6 : (carryIn r).l6 = r.get 6 + carryBefore r.get 6 := congrArg (r.get 6 + hiPart 25 ·) h5
  have h7 : (carryIn r).l7 = r.get 7 + carryBefore r.get 7 := congrArg (r.get 7 + hiPart 26 ·) h6
  have h8 : (carryIn r).l8 = r.get 8 + carryBefore r.get 8 := congrArg (r.get 8 + hiPart 25 ·) h7
  have h9 : (carryIn r).l9 = r.get 9 + carryBefore r.get 9 := congrArg (r.get 9 + hiPart 26 ·) h8
  fin_cases k <;> assumption

theorem carryOut_eq_carryBefore (r : Ten Int) : carryOut r = carryBefore r.get 10 :=
  congrArg (hiPart 25) (get_carryIn r 9)

theorem foldIn_eq (r : Ten Int) : foldIn r = r.get 0 % 2 ^ 26 + 19 * carryBefore r.get 10 := by
  rw [foldIn, carryOut_eq_carryBefore]
  rfl

/-- What the loop leaves of each limb, before the fold of the carry out and the closing step. -/
theorem get_loPart_carryIn (r : Ten Int) (k : Fin 10) :
    (Ten.zipWith loPart Config.W (carryIn r)).get k =
      (r.get k + carryBefore r.get k.val) % 2 ^ radixWidth k.val := by
  rw [Ten.get_zipWith, get_carryIn]
  fin_cases k <;> rfl

theorem get_feCarry (r : Ten Int) (k : Fin 10) : (feCarry r).get k = carrySpec r.get k := by
  have hk := get_loPart_carryIn r k
  have h0 : k = 0 → (feCarry r).get k = foldIn r % 2 ^ 26 := by rintro rfl; rfl
  have h1 : k = 1 → (feCarry r).get k = (Ten.zipWith loPart Config.W (carryIn r)).get k + foldIn r / 2 ^ 26 := by
    rintro rfl; rfl
  have h2 : k ≠ 0 → k ≠ 1 → (feCarry r).get k = (Ten.zipWith loPart Config.W (carryIn r)).get k := by
    fin_cases k <;> simp [feCarry, Ten.get]
  rw [carrySpec, ← foldIn_eq]
  split_ifs with hk0 hk1
  · exact h0 hk0
  · rw [h1 hk1, hk]
  · rw [h2 hk0 hk1, hk, add_zero]

theorem feCarry_eq_ofFn (r : Ten Int) : feCarry r = Ten.ofFn (carrySpec r.get) :=
  Ten.ext_get fun k => by rw [get_feCarry, Ten.get_ofFn]

/-! ### The represented integer -/

/-- One turn of the loop trades a carry out of limb `k` for one into limb `k + 1`, so the carries telescope. -/
theorem weighted_loop (r : Fin 10 → Int) :
    (weighted fun k => (r k + carryBefore r k.val) % 2 ^ radixWidth k.val) =
      weighted r - carryBefore r 10 * 2 ^ 255 := by
  have hturn : ∀ k : Fin 10, (r k + carryBefore r k.val) % 2 ^ radixWidth k.val * 2 ^ ((51 * k.val + 1) / 2) =
      r k * 2 ^ ((51 * k.val + 1) / 2) + (carryBefore r k.val * 2 ^ ((51 * k.val + 1) / 2) -
        carryBefore r (k.val + 1) * 2 ^ ((51 * (k.val + 1) + 1) / 2)) := by
    intro k
    have hw : (51 * (k.val + 1) + 1) / 2 = radixWidth k.val + (51 * k.val + 1) / 2 := by
      rw [radixWidth]; split <;> omega
    have hc : carryBefore r (k.val + 1) = (r k + carryBefore r k.val) / 2 ^ radixWidth k.val := by
      rw [carryBefore, Fin.ofNat_val_eq_self]
    rw [hw, pow_add, hc, Int.emod_def]
    ring
  rw [weighted, Finset.sum_congr rfl fun k _ => hturn k, Finset.sum_add_distrib,
    Fin.sum_univ_eq_sum_range (fun k => carryBefore r k * 2 ^ ((51 * k + 1) / 2) -
        carryBefore r (k + 1) * 2 ^ ((51 * (k + 1) + 1) / 2)) 10, Finset.sum_range_sub']
  simp [weighted, carryBefore, sub_eq_add_neg]

/-- The fold adds 19 times the carry out to limb 0, and the closing step moves a multiple `q` of `2^26` from limb 0 to
limb 1. -/
theorem carrySpec_eq_loop_add (r : Fin 10 → Int) :
    ∃ q, ∀ k, carrySpec r k = (r k + carryBefore r k.val) % 2 ^ radixWidth k.val +
      ((if k = 0 then 19 * carryBefore r 10 - 2 ^ 26 * q else 0) + if k = 1 then q else 0) := by
  refine ⟨(r 0 % 2 ^ 26 + 19 * carryBefore r 10) / 2 ^ 26, fun k => ?_⟩
  rw [carrySpec]
  by_cases hk : k = 0
  · subst hk
    have h0 : (r 0 + carryBefore r 0) % 2 ^ radixWidth 0 = r 0 % 2 ^ 26 := by rw [carryBefore, add_zero]; rfl
    have hu := Int.emod_add_mul_ediv (r 0 % 2 ^ 26 + 19 * carryBefore r 10) (2 ^ 26)
    simp only [if_true, Fin.val_zero, h0, zero_ne_one, if_false]
    linarith
  · simp [hk]

/-- The fold takes `2^255` out as 19; the closing step keeps the value. -/
theorem weighted_carrySpec (r : Fin 10 → Int) :
    weighted (carrySpec r) = weighted r - carryBefore r 10 * (2 ^ 255 - 19) := by
  obtain ⟨q, hq⟩ := carrySpec_eq_loop_add r
  have hloop := weighted_loop r
  have h1 : (51 * ((1 : Fin 10) : Nat) + 1) / 2 = 26 := rfl
  simp only [weighted] at hloop ⊢
  simp only [hq, add_mul, ite_mul, zero_mul, Finset.sum_add_distrib, Finset.sum_ite_eq', Finset.mem_univ, if_true,
    hloop, h1, Fin.val_zero]
  ring

/-- Settles O22: the pass is the loop limb by limb, and the loop's carries telescope. -/
theorem carryPassRule : Obligations.CarryPassRule := fun r =>
  ⟨get_feCarry r, by rw [funext (get_feCarry r), weighted_carrySpec]⟩

end Sys2Proof.Machine
end

section
/-! SUPPORT. The raw sums against R114's double sum: the model's ten written-out sums are the rule's, their coefficients
bound them, and modulo `p` their value is the product of the operands' values. -/

namespace Sys2Proof.Machine

/-! ### The general sum -/

/-- The factor of `a[i]·b[j]` in `r[k]` (R114); R115 writes the non-zero ones out. -/
def rawCoeff (k i j : Fin 10) : Int :=
  if i.val + j.val = k.val then oddFactor i j
  else if i.val + j.val = k.val + 10 then 19 * oddFactor i j
  else 0

theorem rawTerm_eq (a b : Ten Int) (k i j : Fin 10) :
    rawTerm a b k i j = rawCoeff k i j * (a.get i * b.get j) := by
  rw [rawTerm, rawCoeff]
  split_ifs <;> ring

/-- For each `i` one `j` contributes to `r[k]`: the one with `i + j = k` modulo 10. -/
theorem rawCoeff_eq_zero : ∀ {k i j : Fin 10}, j ≠ k - i → rawCoeff k i j = 0 := by decide

theorem sum_rawTerm (a b : Ten Int) (k i : Fin 10) : ∑ j, rawTerm a b k i j = rawTerm a b k i (k - i) :=
  Finset.sum_eq_single _ (fun j _ hj => by rw [rawTerm_eq, rawCoeff_eq_zero hj, zero_mul]) (by simp)

theorem rawSums_eq_ofFn (a b : Ten Int) : rawSums a b = Ten.ofFn (rawSpec a b) := by
  apply Ten.ext_get
  intro k
  rw [Ten.get_ofFn, rawSpec, Finset.sum_congr rfl fun i _ => sum_rawTerm a b k i]
  simp only [Fin.sum_univ_succ, rawTerm_eq]
  fin_cases k <;> simp [-zero_sub, rawSums, Ten.get, rawCoeff, oddFactor] <;> ring

theorem get_rawSums (a b : Ten Int) : (rawSums a b).get = rawSpec a b := by
  rw [rawSums_eq_ofFn]
  exact funext (Ten.get_ofFn _)

/-! ### Symmetry -/

theorem rawCoeff_symm : ∀ k i j : Fin 10, rawCoeff k i j = rawCoeff k j i := by decide

theorem rawSums_symm (a b : Ten Int) : rawSums a b = rawSums b a := by
  rw [rawSums_eq_ofFn, rawSums_eq_ofFn]
  congr 1
  funext k
  rw [rawSpec, rawSpec, Finset.sum_comm]
  refine Finset.sum_congr rfl fun j _ => Finset.sum_congr rfl fun i _ => ?_
  rw [rawTerm_eq, rawTerm_eq, rawCoeff_symm, mul_comm (a.get i)]

theorem feMul_symm (a b : Fe) : feMul a b = feMul b a := by
  rw [feMul, feMul, Bool.and_comm, rawSums_symm]

/-- Settles O24: MUL's function is symmetric, since the raw sums are. -/
theorem mulSymmetric : Obligations.MulSymmetric := by
  refine ⟨rawSums_symm, fun d a b s => ?_⟩
  rw [exec, exec, execMul, execMul, feMul_symm]

/-! ### The value of the raw sums -/

/-- The radix is chosen so that `a[i]·b[j]` has, with its factor, the weight of its two limbs modulo `p`. -/
theorem rawCoeff_weight : ∀ i j : Fin 10,
    (weighted fun k => rawCoeff k i j) ≡ 2 ^ ((51 * i.val + 1) / 2) * 2 ^ ((51 * j.val + 1) / 2) [ZMOD Config.p] := by
  decide +kernel

theorem weighted_rawSpec (a b : Ten Int) : weighted (rawSpec a b) ≡ weighted a.get * weighted b.get [ZMOD Config.p] := by
  have hl : weighted (rawSpec a b) = ∑ i, ∑ j, (a.get i * b.get j) * weighted fun k => rawCoeff k i j := by
    simp only [weighted, rawSpec, rawTerm_eq, Finset.sum_mul, Finset.mul_sum]
    rw [Finset.sum_comm]
    refine Finset.sum_congr rfl fun i _ => ?_
    rw [Finset.sum_comm]
    refine Finset.sum_congr rfl fun j _ => Finset.sum_congr rfl fun k _ => by ring
  have hr : weighted a.get * weighted b.get =
      ∑ i : Fin 10, ∑ j : Fin 10, (a.get i * b.get j) * (2 ^ ((51 * i.val + 1) / 2) * 2 ^ ((51 * j.val + 1) / 2)) := by
    simp only [weighted, Finset.sum_mul_sum]
    refine Finset.sum_congr rfl fun i _ => Finset.sum_congr rfl fun j _ => by ring
  rw [hl, hr]
  exact Int.ModEq.sum fun i _ => Int.ModEq.sum fun j _ => (rawCoeff_weight i j).mul_left _

end Sys2Proof.Machine
end

section
/-! SUPPORT. The products MUL, SQR and MULC (R117 to R120, R126 to R129): no intermediate leaves int64 in bound, what
they leave in the destination, and their value laws. -/

namespace Sys2Proof.Machine

/-! ### Bounds of the carries -/

theorem radixWidth_cases (n : Nat) : radixWidth n = 26 ∨ radixWidth n = 25 := ite_eq_or_eq _ _ _

theorem radixWidth_ofNat (n : Nat) : radixWidth (Fin.ofNat 10 n).val = radixWidth n := by
  simp only [radixWidth, Fin.ofNat]
  split_ifs <;> omega

/-- A limb of magnitude at most `C·2^w`, `w` its width, sends on a carry of about `C`; the slack from `C` to `D` takes up
what the carry into the limb adds, and the rounding. -/
theorem abs_carryBefore_le {r : Fin 10 → Int} {C D : Int} (hr : ∀ k, |r k| ≤ C * 2 ^ radixWidth k.val)
    (hD : C + D / 2 ^ 25 + 2 ≤ D) (n : Nat) : |carryBefore r n| ≤ D := by
  induction n with
  | zero =>
    have hC : 0 ≤ C * 2 ^ 26 := (abs_nonneg _).trans (hr 0)
    rw [carryBefore, abs_zero]
    omega
  | succ n ih =>
    have h := hr (Fin.ofNat 10 n)
    rw [radixWidth_ofNat, abs_le] at h
    rw [abs_le] at ih
    rw [carryBefore, abs_le]
    rcases radixWidth_cases n with hn | hn <;> rw [hn] at h ⊢ <;> constructor <;> omega

/-- The closing carry is the carry out of limb 9, times 19, at the next width. -/
theorem abs_hiPart_foldIn_le {r : Ten Int} {D : Int} (h : |19 * carryOut r| ≤ D * 2 ^ 26 + 2 ^ 26) :
    |hiPart 26 (foldIn r)| ≤ D + 1 := by
  have hu : foldIn r = r.get 0 % 2 ^ 26 + 19 * carryOut r := by rw [foldIn_eq, carryOut_eq_carryBefore]
  rw [hu, hiPart_26, abs_le]
  rw [abs_le] at h
  constructor <;> omega

/-! ### Bounds of the raw sums -/

theorem rawCoeff_range : ∀ k i j : Fin 10, 0 ≤ rawCoeff k i j ∧ rawCoeff k i j ≤ 38 := by decide

/-- The sum of the coefficients of `r[k]`, as R120 adds them up from R115. -/
def coeffSum (k : Fin 10) : Int := ∑ i : Fin 10, ∑ j : Fin 10, rawCoeff k i j

theorem coeffSum_eq : ∀ k, coeffSum k = (⟨267, 154, 213, 118, 159, 82, 105, 46, 51, 10⟩ : Ten Int).get k := by
  decide +kernel

section
variable {a b : Ten Int} (ha : ∀ i, |a.get i| ≤ 2 ^ 27) (hb : ∀ i, |b.get i| ≤ 2 ^ 27)
include ha hb

theorem abs_rawTerm_le (k i j : Fin 10) : |rawTerm a b k i j| ≤ rawCoeff k i j * 2 ^ 54 := by
  rw [rawTerm_eq, abs_mul, abs_of_nonneg (rawCoeff_range k i j).1]
  exact mul_le_mul_of_nonneg_left (abs_le.mpr (abs_mul_le_of_bounds (ha i) (hb j))) (rawCoeff_range k i j).1

theorem sum_abs_rawTerm_le (k : Fin 10) : ∑ i, ∑ j, |rawTerm a b k i j| ≤ coeffSum k * 2 ^ 54 := by
  simp only [coeffSum, Finset.sum_mul]
  exact Finset.sum_le_sum fun i _ => Finset.sum_le_sum fun j _ => abs_rawTerm_le ha hb k i j

theorem abs_get_rawSums_le (k : Fin 10) : |(rawSums a b).get k| ≤ coeffSum k * 2 ^ 54 := by
  rw [get_rawSums, rawSpec]
  calc |∑ i, ∑ j, rawTerm a b k i j| ≤ ∑ i, |∑ j, rawTerm a b k i j| := Finset.abs_sum_le_sum_abs _ _
    _ ≤ ∑ i, ∑ j, |rawTerm a b k i j| := Finset.sum_le_sum fun i _ => Finset.abs_sum_le_sum_abs _ _
    _ ≤ coeffSum k * 2 ^ 54 := sum_abs_rawTerm_le ha hb k

theorem abs_carryBefore_rawSums_lt (n : Nat) : |carryBefore (rawSums a b).get n| < 2 ^ 37 := by
  have hcoeff : ∀ k, coeffSum k * 2 ^ 54 ≤ 154 * 2 ^ 29 * 2 ^ radixWidth k.val := by
    simp only [coeffSum_eq]; decide
  have h := abs_carryBefore_le (D := 2 ^ 37 - 1) (fun k => (abs_get_rawSums_le ha hb k).trans (hcoeff k))
    (by norm_num) n
  omega

/-- Limb 9 has ten terms and limb 8, whose carry enters it, coefficients that add to 51. -/
theorem abs_carryOut_rawSums_le : |carryOut (rawSums a b)| ≤ 10 * 2 ^ 29 + 2 ^ 10 := by
  have h8 : |(rawSums a b).get 8| ≤ 51 * 2 ^ 54 :=
    (abs_get_rawSums_le ha hb 8).trans_eq (by rw [coeffSum_eq]; rfl)
  have h9 : |(rawSums a b).get 9| ≤ 10 * 2 ^ 54 :=
    (abs_get_rawSums_le ha hb 9).trans_eq (by rw [coeffSum_eq]; rfl)
  have hc := abs_carryBefore_rawSums_lt ha hb 8
  have e9 : carryBefore (rawSums a b).get 9 = ((rawSums a b).get 8 + carryBefore (rawSums a b).get 8) / 2 ^ 26 := rfl
  have e10 : carryBefore (rawSums a b).get 10 = ((rawSums a b).get 9 + carryBefore (rawSums a b).get 9) / 2 ^ 25 := rfl
  rw [carryOut_eq_carryBefore, e10, e9, abs_le]
  rw [abs_le] at h8 h9
  rw [abs_lt] at hc
  constructor <;> omega

end

/-! ### MUL and SQR -/

theorem bounded_of_abs_le {f : Fe} {m : Nat} (h : ∀ i, |(f.get i).toInt| ≤ 2 ^ m) : bounded f (2 ^ m) = true :=
  (bounded_iff f _).mpr (by exact_mod_cast h)

theorem feCarry_rawSums_eq (a b : Ten Int) : feCarry (rawSums a b) = Ten.ofFn (carrySpec (rawSpec a b)) := by
  rw [feCarry_eq_ofFn, get_rawSums]

/-- Settles O17: in bound MUL's function answers with the carry pass of the raw sums, and both are the rules'. -/
theorem mulCompletes : Obligations.MulCompletes := by
  intro d a b s ha hb
  obtain ⟨v, hv, hints, -⟩ := feMul_spec _ _ (bounded_of_abs_le ha) (bounded_of_abs_le hb)
  obtain ⟨t, ht, hw, hd⟩ := exec_next_of_ok (i := .mul d a b) (s := s) rfl hv
  exact ⟨t, ht, hw, by rw [hd, hints, feCarry_rawSums_eq]⟩

/-- Settles O18: SQR is MUL of the register with itself. -/
theorem sqrCompletes : Obligations.SqrCompletes := by
  intro d a s ha
  obtain ⟨t, ht, hw, hints⟩ := mulCompletes d a a s ha ha
  exact ⟨t, ht, hw, hints, ht⟩

/-! ### MULC -/

theorem get_map_mul (f : Fe) (k : Nat) :
    ((ints f).map fun x => x * (k : Int)).get = fun i => (f.get i).toInt * (k : Int) := by
  funext i
  rw [Ten.get_map, get_ints]

/-- Settles O19: in bound MULC's function answers with the carry pass of the scaled limbs; the pass of ten zeros is
zero. -/
theorem mulcCompletes : Obligations.MulcCompletes := by
  intro d a imm s himm ha
  obtain ⟨v, hv, hints, -⟩ := feMulc_spec _ imm himm (bounded_of_abs_le ha)
  obtain ⟨t, ht, hw, hd⟩ := exec_next_of_ok (i := .mulc d a imm) (s := s) rfl hv
  rw [feCarry_eq_ofFn, get_map_mul] at hints
  refine ⟨t, ht, hw, by rw [hd, hints], ?_⟩
  rintro rfl i
  have hzero : ∀ k, carrySpec (fun _ => 0) k = 0 := by decide
  rw [hd, ← get_ints, hints, Ten.get_ofFn]
  simpa using hzero i

/-- The scaled limbs, strictly inside `2^60`: the immediate is below `2^20`. -/
theorem abs_scaled_lt {x : Int} {k : Nat} (hk : immOk k = true) (hx : |x| ≤ 2 ^ 40) : |x * k| < 2 ^ 60 := by
  have hk' : (k : Int) ≤ 2 ^ 20 - 1 := by have := of_decide_eq_true hk; omega
  rw [abs_mul, Nat.abs_cast]
  calc |x| * k ≤ 2 ^ 40 * (2 ^ 20 - 1) := mul_le_mul hx hk' (Int.natCast_nonneg k) (by norm_num)
    _ < 2 ^ 60 := by norm_num

theorem abs_get_map_mul_lt {a : Fe} {k : Nat} (hk : immOk k = true) (ha : ∀ i, |(a.get i).toInt| ≤ 2 ^ 40) (i : Fin 10) :
    |((ints a).map fun x => x * (k : Int)).get i| < 2 ^ 60 := by
  rw [get_map_mul]
  exact abs_scaled_lt hk (ha i)

theorem abs_carryBefore_map_mul_lt {a : Fe} {k : Nat} (hk : immOk k = true) (ha : ∀ i, |(a.get i).toInt| ≤ 2 ^ 40)
    (n : Nat) : |carryBefore ((ints a).map fun x => x * (k : Int)).get n| < 2 ^ 35 + 2 ^ 12 := by
  have hw : ∀ i : Fin 10, (2 ^ 60 : Int) ≤ 2 ^ 35 * 2 ^ radixWidth i.val := by decide
  have h := abs_carryBefore_le (D := 2 ^ 35 + 2 ^ 12 - 1)
    (fun i => (abs_get_map_mul_lt hk ha i).le.trans (hw i)) (by norm_num) n
  omega

/-! ### No overflow -/

theorem abs_get_le_of_carriedForm {f : Fe} (h : CarriedForm f) (i : Fin 10) : |(f.get i).toInt| ≤ 2 ^ 26 := by
  exact_mod_cast (bounded_iff f _).mp h.bounded i

theorem get_carryIn_sub (r : Ten Int) (k : Fin 10) : (carryIn r).get k - r.get k = carryBefore r.get k.val := by
  rw [get_carryIn, add_sub_cancel_left]

theorem abs_nineteen_mul_le {c B : Int} (h : |c| ≤ B) : |19 * c| ≤ 19 * B := by
  rw [abs_mul]
  exact mul_le_mul_of_nonneg_left h (by norm_num)

/-- R120(a): the carry out moves limb 1 by less than `2^11`, well inside the slack of carried form. -/
theorem feMul_in_bound {a b : Fe} (ha : ∀ i, |(a.get i).toInt| ≤ 2 ^ 27) (hb : ∀ i, |(b.get i).toInt| ≤ 2 ^ 27) :
    ∃ r, feMul a b = .ok r ∧ CarriedForm r ∧ -2 ^ 11 < r.l1.toInt ∧ r.l1.toInt < 2 ^ 25 + 2 ^ 11 := by
  obtain ⟨r, hr, hints, hform⟩ := feMul_spec a b (bounded_of_abs_le ha) (bounded_of_abs_le hb)
  have hout := abs_carryOut_rawSums_le (a := ints a) (b := ints b) (by simpa using ha) (by simpa using hb)
  obtain ⟨-, ⟨hlo, hhi⟩, -⟩ := feCarry_range (rawSums (ints a) (ints b)) 1522 (by omega)
  have h1 : r.l1.toInt = (feCarry (rawSums (ints a) (ints b))).l1 := congrArg Ten.l1 hints
  exact ⟨r, hr, hform, by omega, by omega⟩

theorem feMulc_in_bound {a : Fe} {k : Nat} (hk : immOk k = true) (ha : ∀ i, |(a.get i).toInt| ≤ 2 ^ 40) :
    ∃ r, feMulc a k = .ok r ∧ CarriedForm r := by
  obtain ⟨r, hr, -, hform⟩ := feMulc_spec a k hk (bounded_of_abs_le ha)
  exact ⟨r, hr, hform⟩

theorem feAdd_feSub_of_carriedForm {f g : Fe} (hf : CarriedForm f) (hg : CarriedForm g) :
    ∃ s d, feAdd f g = .ok s ∧ feSub f g = .ok d ∧ (∀ i, |(s.get i).toInt| ≤ 2 ^ 27) ∧
      ∀ i, |(d.get i).toInt| ≤ 2 ^ 27 := by
  obtain ⟨s, hs, hsb⟩ := feAdd_bounded f g hf.bounded hg.bounded
  obtain ⟨d, hd, hdb⟩ := feSub_bounded f g hf.bounded hg.bounded
  exact ⟨s, d, hs, hd, by exact_mod_cast (bounded_iff s _).mp hsb, by exact_mod_cast (bounded_iff d _).mp hdb⟩

/-- Settles O21: the raw sums are bounded by their coefficients, and each carry by the width of the limb it leaves. -/
theorem productsNeverOverflow : Obligations.ProductsNeverOverflow := by
  refine ⟨fun a b ha hb => ?_, fun a k hk ha => ?_,
    fun f g hf hg => ⟨abs_get_le_of_carriedForm hf, feAdd_feSub_of_carriedForm hf hg⟩, by decide⟩
  · have ha' : ∀ i, |(ints a).get i| ≤ 2 ^ 27 := by simpa using ha
    have hb' : ∀ i, |(ints b).get i| ≤ 2 ^ 27 := by simpa using hb
    have hcoeff : ∀ k, coeffSum k * 2 ^ 54 ≤ 267 * 2 ^ 54 := by simp only [coeffSum_eq]; decide
    have hraw := fun k => (abs_get_rawSums_le ha' hb' k).trans (hcoeff k)
    have hout := abs_carryOut_rawSums_le ha' hb'
    have hout19 := abs_nineteen_mul_le hout
    refine ⟨fun k i j => (abs_rawTerm_le ha' hb' k i j).trans ?_,
      fun k => (sum_abs_rawTerm_le ha' hb' k).trans (hcoeff k), hraw, fun k => ?_,
      fun k => (carryIn_abs_le _ _ hraw k).trans_lt (by norm_num), hout, hout19.trans_lt (by norm_num),
      abs_hiPart_foldIn_le (D := 1520) (hout19.trans (by norm_num)), feMul_in_bound ha hb⟩
    · exact mul_le_mul_of_nonneg_right (rawCoeff_range k i j).2 (by norm_num)
    · rw [get_carryIn_sub]
      exact abs_carryBefore_rawSums_lt ha' hb' k
  · have hcarry := abs_carryBefore_map_mul_lt hk ha
    have hscaled := fun i => (abs_get_map_mul_lt hk ha i).le
    have hout19 := abs_nineteen_mul_le (carryOut_eq_carryBefore _ ▸ (hcarry 10).le)
    refine ⟨fun i => abs_scaled_lt hk (ha i), fun i => ?_,
      fun i => (carryIn_abs_le _ _ hscaled i).trans_lt (by norm_num), hout19.trans_lt (by norm_num),
      (abs_hiPart_foldIn_le (D := 19 * 2 ^ 9) (hout19.trans (by norm_num))).trans_lt (by norm_num),
      feMulc_in_bound hk ha⟩
    rw [← congrFun (get_map_mul a k) i, get_carryIn_sub]
    exact (hcarry i).trans (by norm_num)

end Sys2Proof.Machine
end

section
/-! SUPPORT. The value laws (R129): what a product's function answers, as a number modulo `p` and in size. -/

namespace Sys2Proof.Machine

theorem cast_p : (Config.p : Int) = 2 ^ 255 - 19 := by norm_num [Config.p]

/-- The pass takes a multiple of `p` out. -/
theorem valInts_feCarry (r : Ten Int) : valInts (feCarry r) ≡ valInts r [ZMOD Config.p] := by
  obtain ⟨-, hvalue⟩ := carryPassRule r
  rw [← cast_p, weighted_get, weighted_get] at hvalue
  exact Int.modEq_iff_dvd.mpr ⟨carryBefore r.get 10, by rw [hvalue]; ring⟩

/-- R129: only the slack of limb 1, `2^14·2^26`, takes a carried-form vector out of `[0, 2^255)`. -/
theorem CarriedForm.val_range {f : Fe} (h : CarriedForm f) : -2 ^ 40 < val f ∧ val f < 2 ^ 255 + 2 ^ 40 := by
  obtain ⟨h0, h1, h2, h3, h4, h5, h6, h7, h8, h9⟩ := h
  rw [val, valInts_eq]
  simp only [ints, Ten.map]
  constructor <;> omega

theorem ints_of_feMul {a b v : Fe} (h : feMul a b = .ok v) :
    ints v = feCarry (rawSums (ints a) (ints b)) ∧ CarriedForm v := by
  have hb : bounded a Config.mMul = true ∧ bounded b Config.mMul = true := by
    rw [← Bool.and_eq_true]
    by_contra hn
    rw [feMul, if_neg hn] at h
    cases h
  obtain ⟨r, hr, hints, hform⟩ := feMul_spec a b hb.1 hb.2
  obtain rfl := Except.ok.inj (hr.symm.trans h)
  exact ⟨hints, hform⟩

theorem ints_of_feMulc {a v : Fe} {k : Nat} (hk : immOk k = true) (h : feMulc a k = .ok v) :
    ints v = feCarry ((ints a).map fun x => x * (k : Int)) ∧ CarriedForm v := by
  have hb : bounded a Config.mMulc = true := by
    by_contra hn
    rw [feMulc, if_neg hn] at h
    cases h
  obtain ⟨r, hr, hints, hform⟩ := feMulc_spec a k hk hb
  obtain rfl := Except.ok.inj (hr.symm.trans h)
  exact ⟨hints, hform⟩

theorem val_of_feMul {a b v : Fe} (h : feMul a b = .ok v) : val v ≡ val a * val b [ZMOD Config.p] := by
  calc val v = valInts (feCarry (rawSums (ints a) (ints b))) := congrArg valInts (ints_of_feMul h).1
    _ ≡ valInts (rawSums (ints a) (ints b)) [ZMOD Config.p] := valInts_feCarry _
    _ = weighted (rawSpec (ints a) (ints b)) := by rw [← weighted_get, get_rawSums]
    _ ≡ weighted (ints a).get * weighted (ints b).get [ZMOD Config.p] := weighted_rawSpec _ _
    _ = val a * val b := by rw [val_eq_weighted, val_eq_weighted]

theorem val_of_feMulc {a v : Fe} {k : Nat} (hk : immOk k = true) (h : feMulc a k = .ok v) :
    val v ≡ k * val a [ZMOD Config.p] := by
  calc val v = valInts (feCarry ((ints a).map fun x => x * (k : Int))) := congrArg valInts (ints_of_feMulc hk h).1
    _ ≡ valInts ((ints a).map fun x => x * (k : Int)) [ZMOD Config.p] := valInts_feCarry _
    _ = k * val a := by
      rw [← weighted_get, val_eq_weighted, weighted, weighted, Finset.mul_sum]
      exact Finset.sum_congr rfl fun i _ => by rw [Ten.get_map]; ring

/-- Settles O23: a command that completes without fault leaves what its function answered. -/
theorem valueLaws : Obligations.ValueLaws := by
  intro d a b imm s t hf himm
  refine ⟨fun h => ?_, fun h => ?_, fun h => ?_, fun h => ?_, fun h => ?_⟩
  · exact val_of_feAdd (ok_of_exec_without_fault rfl h hf)
  · exact val_of_feSub (ok_of_exec_without_fault rfl h hf)
  · have hok := ok_of_exec_without_fault rfl h hf
    exact ⟨val_of_feMul hok, (ints_of_feMul hok).2.val_range⟩
  · have hok : feMul (s.readF a) (s.readF a) = .ok (t.readF d) := ok_of_exec_without_fault rfl h hf
    exact ⟨sq (val (s.readF a)) ▸ val_of_feMul hok, (ints_of_feMul hok).2.val_range⟩
  · have hok := ok_of_exec_without_fault rfl h hf
    exact ⟨val_of_feMulc himm hok, (ints_of_feMulc himm hok).2.val_range⟩

end Sys2Proof.Machine
end

section
/-! SUPPORT. The modular inverse (41_inverse.md): what every multiplication keeps, the chain of R152 keeps; from it what
INV leaves, for a vector in bound and for zero, and the product of a vector with its inverse. -/

namespace Sys2Proof.Machine

/-! ### A property of exponents and values, through the chain -/

/-- `r` is no fault but a carried-form vector with the property `Q`. -/
def Answers (Q : Fe → Prop) (r : Result Fe) : Prop := ∃ v, r = .ok v ∧ CarriedForm v ∧ Q v

theorem Answers.bind {Q Q' : Fe → Prop} {r : Result Fe} {f : Fe → Result Fe} (hr : Answers Q r)
    (hf : ∀ v, Q v → Answers Q' (f v)) : Answers Q' (r >>= f) := by
  obtain ⟨v, rfl, -, hv⟩ := hr
  exact hf v hv

/-- A multiplication takes values with exponents `m` and `n` to a value with exponent `m + n`, where `P n v` says that
`v` has the exponent `n`. -/
def KeptByMul (P : Nat → Fe → Prop) : Prop :=
  ∀ ⦃m n : Nat⦄ ⦃a b : Fe⦄, P m a → P n b → Answers (P (m + n)) (feMul a b)

namespace KeptByMul

variable {P : Nat → Fe → Prop} (hP : KeptByMul P) {m : Nat} {a : Fe}

include hP

theorem sqr (ha : P m a) : Answers (P (m + m)) (feSqr a) := hP ha ha

/-- Each squaring doubles the exponent (R151). -/
theorem sqn (ha : P m a) (k : Nat) : ∃ v, Machine.sqn a k = .ok v ∧ P (m * 2 ^ k) v := by
  induction k with
  | zero => exact ⟨a, rfl, by simpa using ha⟩
  | succ k ih =>
    obtain ⟨v, hv, hPv⟩ := ih
    obtain ⟨w, hw, -, hPw⟩ := hP.sqr hPv
    refine ⟨w, by rw [Machine.sqn, hv]; exact hw, ?_⟩
    rwa [pow_succ, ← mul_assoc, mul_two]

theorem sqnMul {n : Nat} {b : Fe} (ha : P m a) (k : Nat) (hb : P n b) :
    Answers (P (m * 2 ^ k + n)) (Machine.sqnMul a k b) := by
  obtain ⟨v, hv, hPv⟩ := hP.sqn ha k
  rw [Machine.sqnMul, hv]
  exact hP hPv hb

/-- A block of `k` squarings puts `k` ones behind the `m` ones of an exponent (R153). -/
theorem sqnMul_ones {k : Nat} {b : Fe} (ha : P (2 ^ m - 1) a) (hb : P (2 ^ k - 1) b) :
    Answers (P (2 ^ (m + k) - 1)) (Machine.sqnMul a k b) := by
  have hones : (2 ^ m - 1) * 2 ^ k + (2 ^ k - 1) = 2 ^ (m + k) - 1 := by
    have hk := Nat.one_le_two_pow (n := k)
    have hmk := Nat.mul_le_mul_right (2 ^ k) (Nat.one_le_two_pow (n := m))
    rw [Nat.sub_mul, pow_add]
    omega
  exact hones ▸ hP.sqnMul ha k hb

/-- R152, R153: block by block to `2^250 − 1`, then `(2^250 − 1)·2^5 + 11 = p − 2`. -/
theorem invChain {x : Fe} (h1 : P 1 x) : Answers (P inverseExponent) (Machine.invChain x) := by
  refine (hP.sqr h1).bind fun _ h2 => (hP.sqr h2).bind fun _ h4 => (hP.sqr h4).bind fun _ h8 =>
    (hP h8 h1).bind fun _ h9 => (hP h9 h2).bind fun _ h11 => (hP.sqr h11).bind fun _ h22 =>
    (hP h22 h9).bind fun a5 h31 => ?_
  have h5 : P (2 ^ 5 - 1) a5 := h31
  refine (hP.sqnMul_ones h5 h5).bind fun _ h10 => (hP.sqnMul_ones h10 h10).bind fun _ h20 =>
    (hP.sqnMul_ones h20 h20).bind fun _ h40 => (hP.sqnMul_ones h40 h10).bind fun _ h50 =>
    (hP.sqnMul_ones h50 h50).bind fun _ h100 => (hP.sqnMul_ones h100 h100).bind fun _ h200 =>
    (hP.sqnMul_ones h200 h50).bind fun _ h250 => ?_
  have hexp : (2 ^ 250 - 1) * 2 ^ 5 + 11 = inverseExponent := by norm_num [inverseExponent]
  exact hexp ▸ hP.sqnMul h250 5 h11

end KeptByMul

/-! ### Powers of the source -/

theorem fieldValue_of_feMul {a b v : Fe} (h : feMul a b = .ok v) : fieldValue v = fieldValue a * fieldValue b := by
  rw [fieldValue, (ZMod.intCast_eq_intCast_iff _ _ _).mpr (val_of_feMul h), Int.cast_mul]
  rfl

theorem CarriedForm.bounded_mMul {f : Fe} (h : CarriedForm f) : Machine.bounded f Config.mMul = true :=
  bounded_mono h.bounded (by decide)

/-- `v` may be multiplied (R157) and carries the power `n` of `x` (R153). -/
structure PowerOf (x : Fe) (n : Nat) (v : Fe) : Prop where
  bounded : Machine.bounded v Config.mMul = true
  value : fieldValue v = fieldValue x ^ n

/-- R157: a product of factors in bound is in bound. -/
theorem keptByMul_powerOf (x : Fe) : KeptByMul (PowerOf x) := by
  intro m n a b ha hb
  obtain ⟨v, hv, -, hform⟩ := feMul_spec a b ha.bounded hb.bounded
  refine ⟨v, hv, hform, hform.bounded_mMul, ?_⟩
  rw [fieldValue_of_feMul hv, ha.value, hb.value, pow_add]

/-- INV's function, in contract: a carried-form vector of the source's field value to the power `p − 2` (R150, R157). -/
theorem feInv_spec {x : Fe} (hx : ∀ i, |(x.get i).toInt| ≤ 2 ^ 27) :
    ∃ y, feInv x = .ok y ∧ CarriedForm y ∧ fieldValue y = fieldValue x ^ inverseExponent := by
  have hb : bounded x Config.mMul = true := bounded_of_abs_le hx
  obtain ⟨y, hy, hform, hpow⟩ := (keptByMul_powerOf x).invChain ⟨hb, (pow_one _).symm⟩
  exact ⟨y, by rw [feInv, if_pos hb, hy], hform, hpow.value⟩

theorem exec_inv_in_bound (d a : FReg) {s : State} (hx : ∀ i, |((s.readF a).get i).toInt| ≤ 2 ^ 27) :
    ∃ t, exec (.inv d a) s = .next t ∧ WroteF d s t ∧ CarriedForm (t.readF d) ∧
      fieldValue (t.readF d) = fieldValue (s.readF a) ^ inverseExponent := by
  obtain ⟨y, hy, hform, hvalue⟩ := feInv_spec hx
  obtain ⟨t, ht, hw, rfl⟩ := exec_next_of_ok (i := .inv d a) (s := s) rfl hy
  exact ⟨t, ht, hw, hform, hvalue⟩

/-- Settles O25: every factor of the chain is in bound, so no step of it fails. -/
theorem invCompletes : Obligations.InvCompletes := by
  intro d a s hx
  obtain ⟨t, ht, hw, hform, -⟩ := exec_inv_in_bound d a hx
  exact ⟨t, ht, hw, hform⟩

/-- Settles O26: the exponents of the chain lead to `2^255 − 21`. -/
theorem invValueLaw : Obligations.InvValueLaw := by
  intro d a s hx
  obtain ⟨t, ht, -, -, hvalue⟩ := exec_inv_in_bound d a hx
  exact ⟨t, ht, hvalue⟩

/-! ### Zero -/

/-- Whatever its exponent, a value that is the zero vector stays the zero vector. -/
theorem keptByMul_zero : KeptByMul fun _ v => v = Ten.replicate 0 := by
  rintro - - _ _ rfl rfl
  exact ⟨_, by decide, by decide, rfl⟩

/-- R155, on limbs. -/
theorem feInv_zero : feInv (Ten.replicate 0) = .ok (Ten.replicate 0) := by
  have hb : bounded (Ten.replicate 0) Config.mMul = true := by decide
  obtain ⟨y, hy, -, rfl⟩ := keptByMul_zero.invChain rfl
  rw [feInv, if_pos hb, hy]

/-- Settles O27: the zero vector goes through the chain as it is, and a positive power of 0 is 0. -/
theorem invOfZero : Obligations.InvOfZero := by
  refine fun d a s => ⟨fun hzero => ?_, fun hx hvalue => ?_⟩
  · have hread : s.readF a = Ten.replicate 0 := Ten.ext_get fun i => (hzero i).trans (Ten.get_replicate _ i).symm
    have hinv : feInv (s.readF a) = .ok (Ten.replicate 0) := by rw [hread, feInv_zero]
    obtain ⟨t, ht, hw, hd⟩ := exec_next_of_ok (i := .inv d a) (s := s) rfl hinv
    exact ⟨t, ht, hw, fun i => by rw [hd, Ten.get_replicate]⟩
  · obtain ⟨t, ht, hw, -, hpow⟩ := exec_inv_in_bound d a hx
    exact ⟨t, ht, hw, by rw [hpow, hvalue, zero_pow (by decide)]⟩

/-! ### The product with the inverse -/

/-- The bytes of a canonical `n` carry the residue of every `m` that `n` represents. -/
theorem le256_bytes32_eq_emod {n m : Int} (h0 : 0 ≤ n) (hn : n < Config.p) (hm : n % Config.p = m % Config.p) :
    (le256 (bytes32 n.toNat) : Int) = m % Config.p := by
  rw [← hm, Int.emod_eq_of_lt h0 hn]
  rw [cast_p] at hn
  rw [le256, bytes32, BitVec.toNat_ofNat, Nat.mod_eq_of_lt (by omega), Int.toNat_of_nonneg h0]

/-- PACK's function, in range: the canonical representative, by at most one correction by `p` (R197). -/
theorem fePack_in_range {f : Fe} (h0 : -(Config.p : Int) ≤ val f) (hp : val f < 2 * Config.p) :
    ∃ c, fePack f = .ok c ∧ (le256 c : Int) = val f % Config.p := by
  have hrange : ¬(val f < -(Config.p : Int) ∨ 2 * (Config.p : Int) ≤ val f) := by omega
  rw [fePack]
  simp only [Bool.or_eq_true, decide_eq_true_eq, if_neg hrange]
  split
  case isTrue hge => exact ⟨_, rfl, le256_bytes32_eq_emod (by omega) (by omega) (Int.sub_emod_right _ _)⟩
  case isFalse hlt =>
    split
    case isTrue hneg => exact ⟨_, rfl, le256_bytes32_eq_emod (by omega) (by omega) (Int.add_emod_right _ _)⟩
    case isFalse hnonneg => exact ⟨_, rfl, le256_bytes32_eq_emod (by omega) (by omega) rfl⟩

/-- R156: Fermat's little theorem, with `p` prime. -/
theorem mul_pow_inverseExponent {u : Field} (hu : u ≠ 0) : u * u ^ inverseExponent = 1 := by
  have : Fact Config.p.Prime := ⟨Laws.prime_p⟩
  rw [← pow_succ', show inverseExponent + 1 = Config.p - 1 by decide]
  exact ZMod.pow_card_sub_one_eq_one hu

/-- Settles O28: the product is 1 in the field by Fermat, and a carried-form vector is in PACK's range. -/
theorem inverseLaw : Obligations.InverseLaw := by
  intro x hx hne
  obtain ⟨y, hy, hyform, hpow⟩ := feInv_spec hx
  obtain ⟨z, hz, -, hzform⟩ := feMul_spec x y (bounded_of_abs_le hx) hyform.bounded_mMul
  have hone : fieldValue z = 1 := by rw [fieldValue_of_feMul hz, hpow, mul_pow_inverseExponent hne]
  have hmod : Int.ModEq Config.p (val z) 1 := (ZMod.intCast_eq_intCast_iff _ _ _).mp (hone.trans Int.cast_one.symm)
  obtain ⟨hlo, hhi⟩ := hzform.val_range
  have hp := cast_p
  obtain ⟨c, hc, hbytes⟩ := fePack_in_range (f := z) (by omega) (by omega)
  have h1 : (1 : Int) % Config.p = 1 := Int.emod_eq_of_lt (by norm_num) (by omega)
  exact ⟨y, z, c, hy, hz, hmod, hc, by exact_mod_cast (hbytes.trans hmod).trans h1⟩

end Sys2Proof.Machine
end

section
/-! SUPPORT. The ladder (42_ladder.md): which field values the functions of a ladder step answer for operands in bound
(R170, R171, R173), and from it what SMUL leaves for any scalar and for the scalar 0 (R174 to R177). -/

namespace Sys2Proof.Machine

/-! ### Functions that answer -/

/-- `r` is no fault but an answer with the property `Q`. -/
def Gives {α : Type} (Q : α → Prop) (r : Result α) : Prop := ∃ v, r = .ok v ∧ Q v

theorem Gives.bind {α β : Type} {Q : α → Prop} {Q' : β → Prop} {r : Result α} {f : α → Result β} (hr : Gives Q r)
    (hf : ∀ v, Q v → Gives Q' (f v)) : Gives Q' (r >>= f) := by
  obtain ⟨v, rfl, hv⟩ := hr
  exact hf v hv

theorem Gives.imp {α : Type} {Q Q' : α → Prop} {r : Result α} (hr : Gives Q r) (h : ∀ v, Q v → Q' v) : Gives Q' r :=
  Exists.imp (fun v => And.imp_right (h v)) hr

/-- Every limb of `f` has magnitude at most `2^n`, and `f` represents `x` modulo `p` (R10, R113). -/
structure Represents (n : Nat) (f : Fe) (x : Field) : Prop where
  bounded : Machine.bounded f (2 ^ n) = true
  value : fieldValue f = x

namespace Represents

variable {m n k : Nat} {a b : Fe} {x y : Field}

theorem mono (ha : Represents m a x) (hmn : m ≤ n) : Represents n a x :=
  ⟨bounded_mono ha.bounded (Nat.pow_le_pow_right (by norm_num) hmn), ha.value⟩

theorem abs_le (ha : Represents n a x) (i : Fin 10) : |(a.get i).toInt| ≤ 2 ^ n := by
  exact_mod_cast (bounded_iff a _).mp ha.bounded i

/-- Sums and differences gain one bit. -/
theorem add (ha : Represents 26 a x) (hb : Represents 26 b y) : Gives (Represents 27 · (x + y)) (feAdd a b) := by
  obtain ⟨v, hv, hbound⟩ := feAdd_bounded a b ha.bounded hb.bounded
  exact ⟨v, hv, hbound, by rw [fieldValue, val_of_feAdd hv, Int.cast_add, ← ha.value, ← hb.value]; rfl⟩

theorem sub (ha : Represents 26 a x) (hb : Represents 26 b y) : Gives (Represents 27 · (x - y)) (feSub a b) := by
  obtain ⟨v, hv, hbound⟩ := feSub_bounded a b ha.bounded hb.bounded
  exact ⟨v, hv, hbound, by rw [fieldValue, val_of_feSub hv, Int.cast_sub, ← ha.value, ← hb.value]; rfl⟩

theorem mul_carriedForm (ha : Represents m a x) (hb : Represents n b y) (hm : m ≤ 27 := by decide)
    (hn : n ≤ 27 := by decide) : Gives (fun v => CarriedForm v ∧ fieldValue v = x * y) (feMul a b) := by
  obtain ⟨v, hv, -, hform⟩ := feMul_spec a b (ha.mono hm).bounded (hb.mono hn).bounded
  exact ⟨v, hv, hform, by rw [fieldValue_of_feMul hv, ha.value, hb.value]⟩

/-- Products take that bit back. -/
theorem mul (ha : Represents m a x) (hb : Represents n b y) (hm : m ≤ 27 := by decide) (hn : n ≤ 27 := by decide) :
    Gives (Represents 26 · (x * y)) (feMul a b) :=
  (ha.mul_carriedForm hb hm hn).imp fun _ ⟨hform, hvalue⟩ => ⟨hform.bounded, hvalue⟩

theorem sqr (ha : Represents 27 a x) : Gives (Represents 26 · (x ^ 2)) (feSqr a) := sq x ▸ ha.mul ha

theorem mulc (ha : Represents 27 a x) (hk : immOk k = true) : Gives (Represents 26 · (k * x)) (feMulc a k) := by
  obtain ⟨v, hv, -, hform⟩ := feMulc_spec a k hk (ha.mono (by decide)).bounded
  refine ⟨v, hv, hform.bounded, ?_⟩
  rw [fieldValue, (ZMod.intCast_eq_intCast_iff _ _ _).mpr (val_of_feMulc hk hv), Int.cast_mul, ← ha.value]
  simp [fieldValue]

theorem inv (ha : Represents 26 a x) : Gives (Represents 26 · (x ^ inverseExponent)) (feInv a) := by
  obtain ⟨v, hv, hform, hvalue⟩ := feInv_spec (ha.mono (by decide)).abs_le
  exact ⟨v, hv, hform.bounded, by rw [hvalue, ha.value]⟩

end Represents

/-! ### One ladder step -/

/-- A slot within `2^26` that represents a pair of field values (R166). -/
structure Slot.Represents (l : Slot) (q : Field × Field) : Prop where
  x : Machine.Represents 26 l.x q.1
  z : Machine.Represents 26 l.z q.2

/-- R170: every operand of a product is within `2^27`, and the new pair is within `2^26` again (R176). -/
theorem diffAdd_represents {addend doubled : Slot} {u : Fe} {qa qd : Field × Field} {w : Field}
    (ha : addend.Represents qa) (hd : doubled.Represents qd) (hu : Represents 26 u w) :
    Gives (·.Represents (fieldAdd w qa qd)) (diffAdd addend doubled u) :=
  (ha.x.add ha.z).bind fun _ h1 => (ha.x.sub ha.z).bind fun _ h2 =>
  (hd.x.add hd.z).bind fun _ h3 => (hd.x.sub hd.z).bind fun _ h4 =>
  (h2.mul h3).bind fun _ hp => (h1.mul h4).bind fun _ hq =>
  (hp.add hq).bind fun _ hs => (hp.sub hq).bind fun _ hm =>
  hs.sqr.bind fun _ hx => hm.sqr.bind fun _ hdd =>
  (hdd.mul hu).bind fun _ hz => ⟨_, rfl, hx, hz⟩

/-- R171, within the same bounds. -/
theorem diffDouble_represents {doubled : Slot} {q : Field × Field} (hd : doubled.Represents q) :
    Gives (·.Represents (fieldDouble q)) (diffDouble doubled) :=
  (hd.x.add hd.z).bind fun _ h3 => (hd.x.sub hd.z).bind fun _ h4 =>
  h3.sqr.bind fun _ haa => h4.sqr.bind fun _ hbb =>
  (haa.mul hbb).bind fun _ hx =>
  (haa.sub hbb).bind fun _ hed => (hed.mulc (by decide)).bind fun _ hec =>
  (haa.add hec).bind fun _ hsum => (hsum.mul hed).bind fun _ hz =>
  ⟨_, rfl, hx, by simpa [fieldDouble, mul_comm, Config.a24] using hz⟩

/-- Both slots, as pairs of field values (R166). -/
structure Slots.Represents (l : Slots) (q : (Field × Field) × (Field × Field)) : Prop where
  s0 : l.s0.Represents q.1
  s1 : l.s1.Represents q.2

/-- The step of the ladder on field values that `fieldLadder` takes for a bit (R168, R173). -/
def fieldStep (w : Field) (q : (Field × Field) × (Field × Field)) (bit : Bool) : (Field × Field) × (Field × Field) :=
  if bit then (fieldAdd w q.1 q.2, fieldDouble q.2) else (fieldDouble q.1, fieldAdd w q.2 q.1)

theorem fieldLadder_succ (n : Nat) (w : Field) (t : Nat) (q : (Field × Field) × (Field × Field)) :
    fieldLadder n w (t + 1) q = fieldLadder n w t (fieldStep w q (n.testBit t)) := rfl

theorem ladderStep_represents {l : Slots} {u : Fe} {q : (Field × Field) × (Field × Field)} {w : Field}
    (hl : l.Represents q) (hu : Represents 26 u w) (bit : Bool) :
    Gives (·.Represents (fieldStep w q bit)) (ladderStep l u bit) := by
  cases bit with
  | false =>
    exact (diffAdd_represents hl.s1 hl.s0 hu).bind fun _ hsum => (diffDouble_represents hl.s0).bind fun _ hdbl =>
      ⟨_, rfl, hdbl, hsum⟩
  | true =>
    exact (diffAdd_represents hl.s0 hl.s1 hu).bind fun _ hsum => (diffDouble_represents hl.s1).bind fun _ hdbl =>
      ⟨_, rfl, hsum, hdbl⟩

/-! ### The ladder -/

theorem ladder_represents {k : Bytes32} {u : Fe} {w : Field} (hu : Represents 26 u w) {t : Nat} {l : Slots}
    {q : (Field × Field) × (Field × Field)} (hl : l.Represents q) :
    Gives (·.Represents (fieldLadder (le256 k) w t q)) (ladder k u t l) := by
  induction t generalizing l q with
  | zero => exact ⟨l, rfl, hl⟩
  | succ t ih =>
    rw [fieldLadder_succ, ← bitOf_eq_testBit]
    exact (ladderStep_represents hl hu (bitOf k t)).bind fun _ h => ih h

/-! ### SMUL's function -/

theorem feConst_represents {k : Nat} (hk : k ≤ 2 ^ 26) : Represents 26 (feConst k) k := by
  have hlimb := toInt_feConst k (by omega)
  refine ⟨(bounded_iff _ _).mpr fun i => ?_, ?_⟩
  · rw [hlimb i]
    split
    · rw [Nat.abs_cast]; exact_mod_cast hk
    · simp
  · simp [fieldValue, val_eq_weighted, weighted, hlimb]

/-- The slot `(1, 0)` the ladder starts slot 0 from (R166). -/
def neutralSlot : Slot := ⟨feConst 1, feConst 0⟩

theorem neutralSlot_represents : neutralSlot.Represents (1, 0) where
  x := Nat.cast_one (R := Field) ▸ feConst_represents (by norm_num)
  z := Nat.cast_zero (R := Field) ▸ feConst_represents (by norm_num)

theorem slots0_represents {u : Fe} {w : Field} (hu : Represents 26 u w) : (slots0 u).Represents ((1, 0), (w, 1)) :=
  ⟨neutralSlot_represents, hu, neutralSlot_represents.x⟩

theorem feSmul_of_represents {u : Fe} {w : Field} (hu : Represents 26 u w) (k : Bytes32) :
    feSmul k u = ladder k u 256 (slots0 u) >>= affine := if_pos hu.bounded

/-- SMUL's function, in contract: slot 0 of the ladder's answer is within the bounds of INV and MUL (R176). -/
theorem feSmul_spec {u : Fe} {w : Field} (hu : Represents 26 u w) (k : Bytes32) :
    Gives (fun v => CarriedForm v ∧ fieldValue v = fieldSmul (le256 k) w) (feSmul k u) := by
  rw [feSmul_of_represents hu]
  exact (ladder_represents hu (slots0_represents hu)).bind fun _ hl =>
    hl.s0.z.inv.bind fun _ hinv => hl.s0.x.mul_carriedForm hinv

/-! ### The scalar 0 -/

theorem diffDouble_neutralSlot : diffDouble neutralSlot = .ok neutralSlot := by decide

/-- A step for a 0 bit doubles slot 0, and twice the neutral slot is the neutral slot, limb for limb (R177). -/
theorem ladder_zero {k : Bytes32} (hk : le256 k = 0) {u : Fe} {w : Field} (hu : Represents 26 u w) {t : Nat} {l : Slots}
    {q : Field × Field} (h0 : l.s0 = neutralSlot) (h1 : l.s1.Represents q) :
    Gives (·.s0 = neutralSlot) (ladder k u t l) := by
  induction t generalizing l q with
  | zero => exact ⟨l, rfl, h0⟩
  | succ t ih =>
    have hbit : bitOf k t = false := by rw [bitOf_eq_testBit, hk, Nat.zero_testBit]
    have hstep : Gives (fun l' => l'.s0 = neutralSlot ∧ ∃ q', l'.s1.Represents q') (ladderStep l u (bitOf k t)) := by
      rw [hbit]
      refine (diffAdd_represents h1 (h0 ▸ neutralSlot_represents) hu).bind fun _ hsum => ?_
      exact ⟨_, by rw [slotAt, if_neg Bool.false_ne_true, h0, diffDouble_neutralSlot]; rfl, rfl, _, hsum⟩
    exact hstep.bind fun _ ⟨h0', _, h1'⟩ => ih h0' h1'

theorem affine_of_neutralSlot {l : Slots} (h : l.s0 = neutralSlot) : affine l = .ok (Ten.replicate 0) := by
  have hinv : feInv neutralSlot.z = .ok (Ten.replicate 0) := feInv_zero
  have hmul : feMul neutralSlot.x (Ten.replicate 0) = .ok (Ten.replicate 0) := by decide
  rw [affine, h, hinv]
  exact hmul

theorem feSmul_zero {k : Bytes32} (hk : le256 k = 0) {u : Fe} {w : Field} (hu : Represents 26 u w) :
    feSmul k u = .ok (Ten.replicate 0) := by
  obtain ⟨l, hl, h0⟩ := ladder_zero hk hu (t := 256) (l := slots0 u) rfl (slots0_represents hu).s1
  rw [feSmul_of_represents hu, hl]
  exact affine_of_neutralSlot h0

/-! ### The statements about SMUL -/

theorem represents_readF {s : State} {r : FReg} (h : ∀ i, |((s.readF r).get i).toInt| ≤ 2 ^ 26) :
    Represents 26 (s.readF r) (fieldValue (s.readF r)) := ⟨bounded_of_abs_le h, rfl⟩

theorem exec_smul_in_bound (d a : FReg) (b : BReg) {s : State} (hu : ∀ i, |((s.readF a).get i).toInt| ≤ 2 ^ 26) :
    ∃ t, exec (.smul d a b) s = .next t ∧ WroteF d s t ∧ CarriedForm (t.readF d) ∧
      fieldValue (t.readF d) = fieldSmul (le256 (s.readB b)) (fieldValue (s.readF a)) := by
  obtain ⟨v, hv, hform, hvalue⟩ := feSmul_spec (represents_readF hu) (s.readB b)
  obtain ⟨t, ht, hw, rfl⟩ := exec_next_of_ok (i := .smul d a b) (s := s) rfl hv
  exact ⟨t, ht, hw, hform, hvalue⟩

/-- Settles O29: every slot of the ladder stays within `2^26`, so no step of it fails. -/
theorem smulCompletes : Obligations.SmulCompletes := by
  intro d a b s hu
  obtain ⟨t, ht, hw, hform, -⟩ := exec_smul_in_bound d a b hu
  exact ⟨t, ht, hw, hform⟩

/-- Settles O30: step by step the slots represent the pairs of the ladder on field values. -/
theorem smulRefinesFieldLadder : Obligations.SmulRefinesFieldLadder := by
  intro d a b s hu
  obtain ⟨t, ht, -, -, hvalue⟩ := exec_smul_in_bound d a b hu
  exact ⟨t, ht, hvalue⟩

/-- Settles O31: slot 0 is `(1, 0)` to the end, and `1 · inverse(0)` is the zero vector. -/
theorem smulOfZeroScalar : Obligations.SmulOfZeroScalar := by
  intro d a b s hu hk
  obtain ⟨t, ht, hw, hd⟩ := exec_next_of_ok (i := .smul d a b) (s := s) rfl (feSmul_zero hk (represents_readF hu))
  exact ⟨t, ht, hw, fun i => by rw [hd, Ten.get_replicate]⟩

end Sys2Proof.Machine
end

section
/-! SUPPORT. The ladder step the host runs with eighteen commands (R180), against `ladder_step` (R173). -/

namespace Sys2Proof.Machine

/-- R180's commands with the addend pair in `ax`, `az` and the doubled pair in `dx`, `dz`: first R170, which leaves the
doubled pair's sum and difference in `F8` and `F9`, then R171 from those. -/
def stepProgram (ax az dx dz : FReg) : List Instr :=
  [.add 6 ax az, .sub 7 ax az, .add 8 dx dz, .sub 9 dx dz, .mul ax 7 8, .mul az 6 9, .add 6 ax az, .sub 7 ax az,
   .sqr ax 6, .sqr 6 7, .mul az 6 1,
   .sqr 6 8, .sqr 7 9, .mul dx 6 7, .sub 7 6 7, .mulc dz 7 Config.a24, .add 6 6 dz, .mul dz 6 7]

theorem ladderProgram0_eq : ladderProgram0 = stepProgram 4 5 2 3 := rfl

theorem ladderProgram1_eq : ladderProgram1 = stepProgram 2 3 4 5 := rfl

/-! ### Running them -/

theorem bind_eq_ok_iff {α β : Type} {r : Result α} {f : α → Result β} {y : β} :
    r >>= f = .ok y ↔ ∃ x, r = .ok x ∧ f x = .ok y := by
  cases r with
  | ok x => exact ⟨fun h => ⟨x, rfl, h⟩, fun ⟨_, hx, h⟩ => Except.ok.inj hx ▸ h⟩
  | error c => exact ⟨nofun, nofun⟩

theorem execAll_cons_of_next {i : Instr} {rest : List Instr} {s t : State} (hi : exec i s = .next t) :
    execAll (i :: rest) s = execAll rest t := by
  rw [execAll, hi]

section
variable (d a b : FReg) (rest : List Instr) (s : State)

@[simp] theorem execAll_nil : execAll [] s = .next s := rfl

@[simp] theorem execAll_add :
    execAll (.add d a b :: rest) s = execAll rest (s.commitF d (feAdd (s.readF a) (s.readF b))) :=
  execAll_cons_of_next rfl

@[simp] theorem execAll_sub :
    execAll (.sub d a b :: rest) s = execAll rest (s.commitF d (feSub (s.readF a) (s.readF b))) :=
  execAll_cons_of_next rfl

@[simp] theorem execAll_mul :
    execAll (.mul d a b :: rest) s = execAll rest (s.commitF d (feMul (s.readF a) (s.readF b))) :=
  execAll_cons_of_next rfl

@[simp] theorem execAll_sqr : execAll (.sqr d a :: rest) s = execAll rest (s.commitF d (feSqr (s.readF a))) :=
  execAll_cons_of_next rfl

@[simp] theorem execAll_mulc (k : Nat) :
    execAll (.mulc d a k :: rest) s = execAll rest (s.commitF d (feMulc (s.readF a) k)) :=
  execAll_cons_of_next rfl

end

/-- With nine different registers every command finds the operands of the call it stands for, so when `diffAdd` and
`diffDouble` answer, the commands leave their answers, limb for limb. -/
theorem stepProgram_runs {ax az dx dz : FReg} (hne : [ax, az, dx, dz, 1, 6, 7, 8, 9].Nodup) {s : State} {sum dbl : Slot}
    (hsum : diffAdd ⟨s.readF ax, s.readF az⟩ ⟨s.readF dx, s.readF dz⟩ (s.readF 1) = .ok sum)
    (hdbl : diffDouble ⟨s.readF dx, s.readF dz⟩ = .ok dbl) :
    ∃ t, execAll (stepProgram ax az dx dz) s = .next t ∧
      ⟨t.readF ax, t.readF az⟩ = sum ∧ ⟨t.readF dx, t.readF dz⟩ = dbl ∧
      t.readF 1 = s.readF 1 ∧ t.status.fault = s.status.fault := by
  have hne' := List.nodup_reverse.mpr hne
  simp only [List.reverse_cons, List.reverse_nil, List.nil_append, List.cons_append, List.nodup_cons, List.mem_cons,
    not_or] at hne hne'
  simp only [diffAdd, bind_eq_ok_iff] at hsum
  obtain ⟨t1, h1, t2, h2, t3, h3, t4, h4, p, hp, q, hq, s', hs', d, hd, ax', hax, dd, hdd, az', haz, hsum⟩ := hsum
  simp only [diffDouble, h3, h4, bind_eq_ok_iff, Except.ok.injEq, exists_eq_left'] at hdbl
  obtain ⟨aa, haa, bb, hbb, bx, hbx, ed, hed, ec, hec, e, he, bz, hbz, hdbl⟩ := hdbl
  cases hsum
  cases hdbl
  refine ⟨?_, ?run, ?regs⟩
  case run =>
    simp [stepProgram, State.readF_writeF, hne, hne', h1, h2, h3, h4, hp, hq, hs', hd, hax, hdd, haz, haa, hbb, hbx, hed,
      hec, he, hbz]
    rfl
  case regs => simp [State.readF_writeF, hne, hne']

/-! ### The statement -/

theorem ladderStep_of_ok {l : Slots} {u : Fe} {bit : Bool} {sum dbl : Slot}
    (hsum : diffAdd (slotAt l !bit) (slotAt l bit) u = .ok sum) (hdbl : diffDouble (slotAt l bit) = .ok dbl) :
    ladderStep l u bit = .ok (if bit then ⟨sum, dbl⟩ else ⟨dbl, sum⟩) := by
  rw [ladderStep, hsum, hdbl]
  rfl

/-- Settles O32: in bound both functions of the step answer, so the commands run through and leave their answers. -/
theorem hostLadderStep : Obligations.HostLadderStep := by
  intro s hbound
  have hu := represents_readF (hbound 1 (by decide))
  have h0 : Slot.Represents ⟨s.readF 2, s.readF 3⟩ (fieldValue (s.readF 2), fieldValue (s.readF 3)) :=
    ⟨represents_readF (hbound 2 (by decide)), represents_readF (hbound 3 (by decide))⟩
  have h1 : Slot.Represents ⟨s.readF 4, s.readF 5⟩ (fieldValue (s.readF 4), fieldValue (s.readF 5)) :=
    ⟨represents_readF (hbound 4 (by decide)), represents_readF (hbound 5 (by decide))⟩
  rw [ladderProgram0_eq, ladderProgram1_eq]
  constructor
  · obtain ⟨sum, hsum, -⟩ := diffAdd_represents h1 h0 hu
    obtain ⟨dbl, hdbl, -⟩ := diffDouble_represents h0
    obtain ⟨t, hrun, rfl, rfl, hbase, hfault⟩ := stepProgram_runs (by decide) hsum hdbl
    exact ⟨t, _, hrun, ladderStep_of_ok hsum hdbl, rfl, hbase, hfault⟩
  · obtain ⟨sum, hsum, -⟩ := diffAdd_represents h0 h1 hu
    obtain ⟨dbl, hdbl, -⟩ := diffDouble_represents h1
    obtain ⟨t, hrun, rfl, rfl, hbase, hfault⟩ := stepProgram_runs (by decide) hsum hdbl
    exact ⟨t, _, hrun, ladderStep_of_ok hsum hdbl, rfl, hbase, hfault⟩

end Sys2Proof.Machine
end

section
/-! SUPPORT. The codec (43_codec.md): UNPACK's limbs as slices of the integer and what they represent (R191, R192),
PACK's function in and out of its range (R197), and the two one after the other (R200). -/

namespace Sys2Proof.Machine

/-! ### UNPACK -/

/-- The number of bits of limb `i` of an unpacked vector: the radix width, but 26 for limb 9, which keeps bit 255
(R191). -/
def sliceWidth (i : Fin 10) : Nat := if i.val % 2 = 0 ∨ i.val = 9 then 26 else 25

theorem sliceWidth_le (i : Fin 10) : sliceWidth i ≤ 26 := by revert i; decide

theorem toInt_slice (n lo : Nat) {w : Nat} (hw : w ≤ 26) : (slice n lo w).toInt = (n / 2 ^ lo % 2 ^ w : Nat) := by
  have hlt : n / 2 ^ lo % 2 ^ w < 2 ^ w := Nat.mod_lt _ (Nat.two_pow_pos w)
  have hle : 2 ^ w ≤ 2 ^ 26 := Nat.pow_le_pow_right (by decide) hw
  rw [slice, Nat.shiftRight_eq_div_pow, ← BitVec.ofInt_natCast]
  exact toInt_ofInt_of_fits _ (by omega)

theorem get_feUnpack (b : Bytes32) (i : Fin 10) :
    (feUnpack b).get i = slice (le256 b) ((51 * i.val + 1) / 2) (sliceWidth i) := by
  fin_cases i <;> rfl

theorem toInt_get_feUnpack (b : Bytes32) (i : Fin 10) :
    ((feUnpack b).get i).toInt = (le256 b / 2 ^ ((51 * i.val + 1) / 2) % 2 ^ sliceWidth i : Nat) := by
  rw [get_feUnpack, toInt_slice _ _ (sliceWidth_le i)]

theorem strictForm_feUnpack (b : Bytes32) : StrictForm (feUnpack b) := by
  have hlimb : ∀ i, 0 ≤ ((feUnpack b).get i).toInt ∧ ((feUnpack b).get i).toInt < 2 ^ sliceWidth i := fun i => by
    rw [toInt_get_feUnpack]
    exact ⟨Int.natCast_nonneg _, by exact_mod_cast Nat.mod_lt _ (Nat.two_pow_pos _)⟩
  exact ⟨hlimb 0, hlimb 1, hlimb 2, hlimb 3, hlimb 4, hlimb 5, hlimb 6, hlimb 7, hlimb 8, hlimb 9⟩

/-- `E[k+1] = E[k] + W[k]` (R7). -/
theorem weight_succ (k : Nat) : (51 * (k + 1) + 1) / 2 = (51 * k + 1) / 2 + radixWidth k := by
  rw [radixWidth]
  split <;> omega

/-- The low `k` slices of a number, at their weights, are the number modulo `2^E[k]`. -/
theorem sum_slices_eq_mod (n k : Nat) :
    ∑ i ∈ Finset.range k, n / 2 ^ ((51 * i + 1) / 2) % 2 ^ radixWidth i * 2 ^ ((51 * i + 1) / 2) =
      n % 2 ^ ((51 * k + 1) / 2) := by
  induction k with
  | zero => simp [Nat.mod_one]
  | succ k ih => rw [Finset.sum_range_succ, ih, weight_succ, Nat.pow_add, Nat.mod_mul, Nat.mul_comm (2 ^ _)]

theorem sliceWidth_castSucc (i : Fin 9) : sliceWidth i.castSucc = radixWidth i.val := by revert i; decide

/-- UNPACK loses nothing: nine slices are the integer modulo `2^230`, and limb 9 is all of the rest (R192). -/
theorem val_feUnpack (b : Bytes32) : val (feUnpack b) = le256 b := by
  have hlt : le256 b < 2 ^ 256 := b.isLt
  have hsum : le256 b % 2 ^ ((51 * 9 + 1) / 2) + le256 b / 2 ^ ((51 * 9 + 1) / 2) % 2 ^ 26 * 2 ^ ((51 * 9 + 1) / 2) =
      le256 b := by
    omega
  rw [← sum_slices_eq_mod, Finset.sum_range] at hsum
  have hlast : sliceWidth (Fin.last 9) = 26 := rfl
  rw [val_eq_weighted, weighted, Fin.sum_univ_castSucc]
  simp only [get_ints, toInt_get_feUnpack, sliceWidth_castSucc, Fin.val_castSucc, hlast, Fin.val_last]
  exact_mod_cast hsum

/-- Settles O33: the limbs are slices that follow on each other, so they represent the integer they are cut from. -/
theorem unpackCompletes : Obligations.UnpackCompletes := by
  intro d a s
  obtain ⟨t, ht, hw, hd⟩ := exec_next_of_ok (i := .unpack d a) (s := s) rfl rfl
  refine ⟨t, ht, hw, ?_⟩
  rw [hd]
  exact ⟨toInt_get_feUnpack _, strictForm_feUnpack _, val_feUnpack _⟩

/-! ### PACK -/

theorem exec_next_of_ok_bytes {i : Instr} {s : State} {d : BReg} {r : Result Bytes32} {v : Bytes32}
    (hi : exec i s = .next (s.commitB d r)) (hr : r = .ok v) :
    ∃ t, exec i s = .next t ∧ WroteB d s t ∧ t.readB d = v := by
  subst hr
  exact ⟨_, hi, wroteB_complete s d v, by simp⟩

/-- Settles O34: in range PACK's function answers with the canonical representative. -/
theorem packCompletes : Obligations.PackCompletes := by
  intro d a s hlo hhi
  rw [← cast_p] at hlo hhi ⊢
  obtain ⟨c, hc, hbytes⟩ := fePack_in_range hlo hhi
  obtain ⟨t, ht, hw, rfl⟩ := exec_next_of_ok_bytes (i := .pack d a) (s := s) rfl hc
  exact ⟨t, ht, hw, hbytes⟩

/-- Where one correction by `p` would not do, PACK's function fails (R197). -/
theorem fePack_out_of_range {f : Fe} (h : val f < -(Config.p : Int) ∨ 2 * (Config.p : Int) ≤ val f) :
    fePack f = .error .packRange := by
  rw [fePack]
  simp only [Bool.or_eq_true, decide_eq_true_eq, if_pos h]

theorem le256_of_fePack {f : Fe} {c : Bytes32} (h : fePack f = .ok c) : (le256 c : Int) = val f % Config.p := by
  by_cases hrange : val f < -(Config.p : Int) ∨ 2 * (Config.p : Int) ≤ val f
  · rw [fePack_out_of_range hrange] at h
    cases h
  · obtain ⟨c', hc', hbytes⟩ := fePack_in_range (f := f) (by omega) (by omega)
    rw [h] at hc'
    cases hc'
    exact hbytes

/-! ### One after the other -/

theorem fePack_feUnpack {b : Bytes32} (h : le256 b < 2 * Config.p) :
    ∃ c, fePack (feUnpack b) = .ok c ∧ le256 c = le256 b % Config.p := by
  have hval := val_feUnpack b
  obtain ⟨c, hc, hbytes⟩ := fePack_in_range (f := feUnpack b) (by omega) (by omega)
  exact ⟨c, hc, by rw [hval] at hbytes; exact_mod_cast hbytes⟩

/-- Bytes that carry the residue of `b` are `b` itself exactly when `b` is canonical. -/
theorem eq_iff_canonical {b c : Bytes32} (h : le256 c = le256 b % Config.p) : c = b ↔ le256 b < Config.p := by
  constructor
  · rintro rfl
    rw [h]
    exact Nat.mod_lt _ (by decide)
  · intro hlt
    exact BitVec.eq_of_toNat_eq (h.trans (Nat.mod_eq_of_lt hlt))

/-- A limb 0 of `2^26` packs, though no unpacked vector has one (R199, "slack is allowed"). -/
theorem exists_fePack_not_strict : ∃ (f : Fe) (c : Bytes32), fePack f = .ok c ∧ ¬ StrictForm f := by
  have hval : val (feConst (2 ^ 26)) = 2 ^ 26 := by decide
  have hp := cast_p
  obtain ⟨c, hc, -⟩ := fePack_in_range (f := feConst (2 ^ 26)) (by omega) (by omega)
  exact ⟨_, c, hc, by decide⟩

/-- Settles O36: `val (feUnpack b)` is `le256 b`, so PACK's range decides, and a vector not in strict form is never
unpacked. -/
theorem packUnpackRoundTrip : Obligations.PackUnpackRoundTrip := by
  refine ⟨fun b => ⟨fun hlt => ?below, fun hge => ?above⟩, fun f c hc => ⟨strictForm_feUnpack c, ?value⟩, ?slack⟩
  case below =>
    obtain ⟨c, hc, hbytes⟩ := fePack_feUnpack hlt
    exact ⟨c, hc, hbytes, eq_iff_canonical hbytes⟩
  case above => exact fePack_out_of_range (.inr (by rw [val_feUnpack]; exact_mod_cast hge))
  case value => rw [val_feUnpack, le256_of_fePack hc, cast_p]
  case slack =>
    obtain ⟨f, c, hc, hslack⟩ := exists_fePack_not_strict
    exact ⟨f, c, hc, fun heq => hslack (heq ▸ strictForm_feUnpack c)⟩

end Sys2Proof.Machine
end

section
/-! SUPPORT. CLAMP byte by byte (R205, R206), and what it does to the scalar. -/

namespace Sys2Proof.Machine

/-! ### Bytes -/

theorem byteOf_toNat (b : Bytes32) (j : Nat) : (byteOf b j).toNat = le256 b / 2 ^ (8 * j) % 2 ^ 8 := by
  rw [byteOf, BitVec.extractLsb'_toNat, Nat.shiftRight_eq_div_pow, le256]

theorem bytes_ext {b c : Bytes32} (h : ∀ j, j < 32 → byteOf b j = byteOf c j) : b = c := by
  apply BitVec.eq_of_getLsbD_eq
  intro k hk
  have hbit := congrArg (·.getLsbD (k % 8)) (h (k / 8) (by omega))
  simpa only [byteOf, BitVec.getLsbD_extractLsb', Nat.mod_lt k (show 8 > 0 by decide), decide_true, Bool.true_and,
    Nat.div_add_mod] using hbit

/-- R205, for each of the 32 bytes. -/
theorem byteOf_clamp32 (b : Bytes32) {j : Nat} (hj : j < 32) :
    byteOf (clamp32 b) j =
      if j = 0 then byteOf b 0 &&& 0xF8#8 else if j = 31 then (byteOf b 31 &&& 0x7F#8) ||| 0x40#8 else byteOf b j := by
  rw [clamp32, byteOf_setByte _ _ _ _ (by decide) hj, byteOf_setByte _ _ _ _ (by decide) hj]
  split
  · next h31 => rw [if_neg (by omega)]
  · rfl

theorem byteOf_clamp32_zero (b : Bytes32) : byteOf (clamp32 b) 0 = byteOf b 0 &&& 0xF8#8 :=
  byteOf_clamp32 b (by decide)

theorem byteOf_clamp32_last (b : Bytes32) : byteOf (clamp32 b) 31 = (byteOf b 31 &&& 0x7F#8) ||| 0x40#8 :=
  byteOf_clamp32 b (by decide)

theorem byteOf_clamp32_middle (b : Bytes32) {j : Nat} (h1 : 1 ≤ j) (h30 : j ≤ 30) :
    byteOf (clamp32 b) j = byteOf b j := by
  rw [byteOf_clamp32 b (by omega), if_neg (by omega), if_neg (by omega)]

/-- Settles O37: CLAMP's function always answers, and its bytes are those of R205. -/
theorem clampCompletes : Obligations.ClampCompletes := by
  intro d a s
  obtain ⟨t, ht, hw, hd⟩ := exec_next_of_ok_bytes (i := .clamp d a) (s := s) rfl rfl
  refine ⟨t, ht, hw, ?_⟩
  rw [hd]
  exact ⟨byteOf_clamp32_zero _, byteOf_clamp32_last _, fun j => byteOf_clamp32_middle _⟩

/-! ### The clamped scalar -/

/-- A byte already clamped stays as it is: `0x40` is within the mask `0x7F`. -/
theorem and_or_and_or (x : Byte) : ((x &&& 0x7F#8 ||| 0x40#8) &&& 0x7F#8) ||| 0x40#8 = x &&& 0x7F#8 ||| 0x40#8 := by
  have hmask : 0x40#8 &&& 0x7F#8 = 0x40#8 := by decide
  rw [BitVec.and_or_distrib_right, BitVec.and_assoc, BitVec.and_self, hmask, BitVec.or_assoc, BitVec.or_self]

theorem clamp32_clamp32 (b : Bytes32) : clamp32 (clamp32 b) = clamp32 b := by
  refine bytes_ext fun j hj => ?_
  obtain rfl | ⟨h1, h30⟩ | rfl : j = 0 ∨ (1 ≤ j ∧ j ≤ 30) ∨ j = 31 := by omega
  · rw [byteOf_clamp32_zero, byteOf_clamp32_zero, BitVec.and_assoc, BitVec.and_self]
  · exact byteOf_clamp32_middle _ h1 h30
  · rw [byteOf_clamp32_last, byteOf_clamp32_last, and_or_and_or]

/-- The low three bits are those of byte 0. -/
theorem le256_clamp32_mod (b : Bytes32) : le256 (clamp32 b) % 8 = 0 := by
  have hbyte : (byteOf (clamp32 b) 0).toNat % 2 ^ 3 = 0 := by
    rw [byteOf_clamp32_zero, BitVec.toNat_and, Nat.and_mod_two_pow]
    exact Nat.and_zero _
  rw [byteOf_toNat] at hbyte
  omega

/-- Bits 255 and 254 are the top two of byte 31. -/
theorem le256_clamp32_range (b : Bytes32) : 2 ^ 254 ≤ le256 (clamp32 b) ∧ le256 (clamp32 b) < 2 ^ 255 := by
  have hlow : 2 ^ 6 ≤ (byteOf (clamp32 b) 31).toNat := by
    rw [byteOf_clamp32_last, BitVec.toNat_or]
    exact Nat.right_le_or
  have hhigh : (byteOf (clamp32 b) 31).toNat < 2 ^ 7 := by
    rw [byteOf_clamp32_last, BitVec.toNat_or, BitVec.toNat_and]
    exact Nat.or_lt_two_pow (Nat.and_lt_two_pow _ (by decide)) (by decide)
  have hlt : le256 (clamp32 b) < 2 ^ 256 := (clamp32 b).isLt
  rw [byteOf_toNat] at hlow hhigh
  constructor <;> omega

/-- Settles O38: the range and the multiple of 8 are read off bytes 31 and 0. -/
theorem clampedScalar : Obligations.ClampedScalar := fun b =>
  ⟨byteOf_clamp32_zero b, byteOf_clamp32_last b, fun _ => byteOf_clamp32_middle b, clamp32_clamp32 b,
    le256_clamp32_mod b, le256_clamp32_range b⟩

end Sys2Proof.Machine
end

section
/-! SUPPORT. How a command ends (R216 to R223): it completes, or it takes the fault entry with the one cause its row
allows; what the fault entry leaves in `STATUS`; and the operands that lead to it. -/

namespace Sys2Proof.Machine

/-! ### The cause a command can raise -/

/-- The one cause a command in progress can raise (R216); an illegal word is no command. -/
def faultCause : Instr → Option FaultCause
  | .add _ _ _ | .sub _ _ _ => some .limbOverflow
  | .mul _ _ _ | .sqr _ _ | .mulc _ _ _ | .inv _ _ | .smul _ _ _ => some .operandBound
  | .pack _ _ => some .packRange
  | .nop | .setc _ _ | .cpy _ _ | .unpack _ _ | .clamp _ _ => none

/-- A function that fails does so with the given cause; with none it always answers. -/
def FailsOnlyWith {α : Type} (cause : Option FaultCause) (r : Result α) : Prop := ∀ c, r = .error c → cause = some c

theorem failsOnlyWith_ok {α : Type} (cause : Option FaultCause) (v : α) : FailsOnlyWith cause (.ok v) := nofun

/-- An entry check is the only place a function fails that answers whenever the check passes. -/
theorem failsOnlyWith_ite {α : Type} {check : Prop} [Decidable check] {r : Result α} {c : FaultCause}
    (hr : check → ∃ v, r = .ok v) : FailsOnlyWith (some c) (if check then r else .error c) := by
  intro c' h
  split at h
  case isTrue hcheck =>
    obtain ⟨v, rfl⟩ := hr hcheck
    cases h
  case isFalse =>
    cases h
    rfl

theorem failsOnlyWith_ifFits (r : Ten Int) : FailsOnlyWith (some .limbOverflow) (ifFits r) :=
  failsOnlyWith_ite fun _ => ⟨_, rfl⟩

theorem failsOnlyWith_feMul (a b : Fe) : FailsOnlyWith (some .operandBound) (feMul a b) :=
  failsOnlyWith_ite fun _ => ⟨_, rfl⟩

theorem failsOnlyWith_feMulc (a : Fe) (k : Nat) : FailsOnlyWith (some .operandBound) (feMulc a k) :=
  failsOnlyWith_ite fun _ => ⟨_, rfl⟩

/-- Past the entry check no product of the chain is out of bound (R157). -/
theorem failsOnlyWith_feInv (x : Fe) : FailsOnlyWith (some .operandBound) (feInv x) :=
  failsOnlyWith_ite fun hb =>
    have ⟨y, hy, _⟩ := (keptByMul_powerOf x).invChain ⟨hb, (pow_one _).symm⟩
    ⟨y, hy⟩

/-- Past the entry check no step of the ladder is out of bound (R176). -/
theorem failsOnlyWith_feSmul (k : Bytes32) (u : Fe) : FailsOnlyWith (some .operandBound) (feSmul k u) :=
  failsOnlyWith_ite fun hb =>
    have hu : Represents 26 u (fieldValue u) := ⟨hb, rfl⟩
    have ⟨v, hv, _⟩ := feSmul_spec hu k
    ⟨v, (feSmul_of_represents hu k).symm.trans hv⟩

theorem failsOnlyWith_fePack (f : Fe) : FailsOnlyWith (some .packRange) (fePack f) := by
  intro c h
  by_cases hrange : val f < -(Config.p : Int) ∨ 2 * (Config.p : Int) ≤ val f
  · rw [fePack_out_of_range hrange] at h
    cases h
    rfl
  · obtain ⟨v, hv, -⟩ := fePack_in_range (f := f) (by omega) (by omega)
    rw [hv] at h
    cases h

/-! ### The end of a command -/

/-- A command has ended: it completed, or it faulted with the cause given. -/
def CompletedOrFaulted (cause : Option FaultCause) (s t : State) : Prop :=
  Completed s t ∨ ∃ c, cause = some c ∧ Faulted c s t

theorem completedOrFaulted_commitF (s : State) (d : FReg) {cause : Option FaultCause} {r : Result Fe}
    (hr : FailsOnlyWith cause r) : CompletedOrFaulted cause s (s.commitF d r) := by
  cases r with
  | ok v => exact .inl (wroteF_complete s d v).completed
  | error c => exact .inr ⟨c, hr c rfl, faulted_takeFault s c⟩

theorem completedOrFaulted_commitB (s : State) (d : BReg) {cause : Option FaultCause} {r : Result Bytes32}
    (hr : FailsOnlyWith cause r) : CompletedOrFaulted cause s (s.commitB d r) := by
  cases r with
  | ok v => exact .inl (wroteB_complete s d v).completed
  | error c => exact .inr ⟨c, hr c rfl, faulted_takeFault s c⟩

/-- Every command completes or faults with the cause of its row (R216, R217). -/
theorem exec_completes_or_faults (i : Instr) (s : State) :
    ∃ t, exec i s = .next t ∧ CompletedOrFaulted (faultCause i) s t := by
  cases i with
  | nop => exact ⟨_, rfl, .inl (completed_complete s)⟩
  | setc d imm => exact ⟨_, rfl, completedOrFaulted_commitF s d (failsOnlyWith_ok _ _)⟩
  | cpy d a => exact ⟨_, rfl, completedOrFaulted_commitF s d (failsOnlyWith_ok _ _)⟩
  | add d a b => exact ⟨_, rfl, completedOrFaulted_commitF s d (failsOnlyWith_ifFits _)⟩
  | sub d a b => exact ⟨_, rfl, completedOrFaulted_commitF s d (failsOnlyWith_ifFits _)⟩
  | mul d a b => exact ⟨_, rfl, completedOrFaulted_commitF s d (failsOnlyWith_feMul _ _)⟩
  | sqr d a => exact ⟨_, rfl, completedOrFaulted_commitF s d (failsOnlyWith_feMul _ _)⟩
  | mulc d a imm => exact ⟨_, rfl, completedOrFaulted_commitF s d (failsOnlyWith_feMulc _ _)⟩
  | inv d a => exact ⟨_, rfl, completedOrFaulted_commitF s d (failsOnlyWith_feInv _)⟩
  | smul d a b => exact ⟨_, rfl, completedOrFaulted_commitF s d (failsOnlyWith_feSmul _ _)⟩
  | unpack d a => exact ⟨_, rfl, completedOrFaulted_commitF s d (failsOnlyWith_ok _ _)⟩
  | pack d a => exact ⟨_, rfl, completedOrFaulted_commitB s d (failsOnlyWith_fePack _)⟩
  | clamp d a => exact ⟨_, rfl, completedOrFaulted_commitB s d (failsOnlyWith_ok _ _)⟩

theorem completedOrFaulted_of_exec {i : Instr} {s t : State} (h : exec i s = .next t) :
    CompletedOrFaulted (faultCause i) s t := by
  obtain ⟨u, hu, hend⟩ := exec_completes_or_faults i s
  rw [hu] at h
  exact Host.Outcome.next.inj h ▸ hend

/-- Settles O8: a command completes or faults with the cause of its row. -/
theorem commandEnds : Obligations.CommandEnds := by
  intro i s
  obtain ⟨t, ht, hend⟩ := exec_completes_or_faults i s
  exact ⟨t, ht, hend.imp_right fun ⟨c, _, hfault⟩ => ⟨c, hfault⟩⟩

/-! ### The fault entry of a command in progress -/

theorem State.Inv.clear_of_busy {s : State} (hi : s.Inv) (hb : s.status.busy = true) :
    s.status.done = false ∧ s.status.fault = false := by
  obtain ⟨hbusy, -⟩ := hi
  exact hbusy hb

/-- `STATUS` after the fault entry: `DONE` was 0 and stays 0, so what reads 1 is `FAULT` and the code (R219). -/
theorem Faulted.readLoc_status {c : FaultCause} {s t : State} (h : Faulted c s t) (hi : s.Inv)
    (hb : s.status.busy = true) : t.readLoc .status = 0x4#32 ||| (c.code.setWidth 32 <<< 4) := by
  obtain ⟨hdone, -⟩ := hi.clear_of_busy hb
  have hfields : t.status = ⟨t.status.busy, t.status.done, t.status.fault, t.status.cause⟩ := rfl
  rw [State.readLoc, hfields, h.busy, h.done, hdone, h.fault, h.cause]
  cases c <;> rfl

/-- No command faults as an illegal word does (R216). -/
theorem faultCause_ne_illegalCmd (i : Instr) : faultCause i ≠ some .illegalCmd := by
  unfold faultCause
  split <;> decide

/-- Settles O9: with `FAULT` 0 before, the command took the fault entry, with the cause of its row. -/
theorem faultEntry : Obligations.FaultEntry := by
  intro i s t hi hb ht hf
  obtain ⟨-, hnofault⟩ := hi.clear_of_busy hb
  obtain hdone | ⟨c, hcause, hfault⟩ := completedOrFaulted_of_exec ht
  · rw [hdone.fault, hnofault] at hf
    cases hf
  · refine ⟨⟨c, ?_, hfault.readLoc_status hi hb⟩, hfault.finfo, hfault.cmd, hfault.allF, hfault.allB, ?_⟩
    · rintro rfl
      exact faultCause_ne_illegalCmd i hcause
    · cases i with
      | nop | setc | cpy | unpack | clamp => cases hcause
      | _ => trivial

/-- Settles O58: in progress `DONE` and `FAULT` are 0, and the end of the command sets exactly one of them. -/
theorem interruptOutput : Obligations.InterruptOutput := by
  intro i s t hi hb ht
  obtain ⟨hdone, hnofault⟩ := hi.clear_of_busy hb
  refine ⟨by simp [State.irq, hdone, hnofault], ?_⟩
  obtain hend | ⟨c, -, hend⟩ := completedOrFaulted_of_exec ht
  · simp [State.irq, hend.done, hend.fault, hend.ctrl, hnofault]
  · simp [State.irq, hend.done, hend.fault, hend.ctrl, hdone]

/-- A command in progress whose step is the fault entry leaves what R219 says, and `STATUS` reads as its code. -/
theorem faulted_of_next {o : Host.Outcome State Fault Refusal} {s : State} {c : FaultCause} (hi : s.Inv)
    (hb : s.status.busy = true) (h : o = .next (s.takeFault c)) :
    ∃ t, o = .next t ∧ Faulted c s t ∧ t.readLoc .status = 0x4#32 ||| (c.code.setWidth 32 <<< 4) :=
  have hfault := faulted_takeFault s c
  ⟨_, h, hfault, hfault.readLoc_status hi hb⟩

/-! ### The operands that lead to it -/

/-- Settles O16: a limb outside int64 is a limb `ifFits` refuses. -/
theorem limbOverflowFaults : Obligations.LimbOverflowFaults := by
  refine fun d a b i s hi hb => ⟨fun hlimb => faulted_of_next hi hb ?_, fun hlimb => faulted_of_next hi hb ?_⟩
  · rw [exec, execAdd, feAdd, ifFits_error _ i (by simpa using hlimb), State.commitF_error]
  · rw [exec, execSub, feSub, ifFits_error _ i (by simpa using hlimb), State.commitF_error]

theorem not_bounded_of_lt_abs {f : Fe} {m : Nat} {i : Fin 10} (h : 2 ^ m < |(f.get i).toInt|) :
    bounded f (2 ^ m) = false :=
  not_bounded_of_limb f (2 ^ m) i (by exact_mod_cast h)

theorem feMul_out_of_bound {a : Fe} (b : Fe) (h : bounded a Config.mMul = false) :
    feMul a b = .error .operandBound := by
  simp [feMul, h]

theorem feMulc_out_of_bound {a : Fe} (k : Nat) (h : bounded a Config.mMulc = false) :
    feMulc a k = .error .operandBound := by
  simp [feMulc, h]

theorem feInv_out_of_bound {a : Fe} (h : bounded a Config.mMul = false) : feInv a = .error .operandBound := by
  simp [feInv, h]

theorem feSmul_out_of_bound {u : Fe} (k : Bytes32) (h : bounded u Config.mSmul = false) :
    feSmul k u = .error .operandBound := by
  simp [feSmul, h]

/-- Settles O20: each function's entry check fails on the source, whatever else it is given. -/
theorem operandBoundFaults : Obligations.OperandBoundFaults := by
  refine fun d a b k imm i s hi hb => ⟨fun hlimb c hc => ?_, fun hlimb => ?_, fun hlimb => ?_⟩
  · have hbound : bounded (s.readF a) Config.mMul = false := not_bounded_of_lt_abs hlimb
    refine faulted_of_next hi hb ?_
    simp only [List.mem_cons, List.not_mem_nil, or_false] at hc
    obtain rfl | rfl | rfl | rfl := hc
    · rw [exec, execMul, feMul_out_of_bound _ hbound, State.commitF_error]
    · rw [exec, execMul, feMul_symm, feMul_out_of_bound _ hbound, State.commitF_error]
    · rw [exec, execSqr, feSqr, feMul_out_of_bound _ hbound, State.commitF_error]
    · rw [exec, execInv, feInv_out_of_bound hbound, State.commitF_error]
  · have hbound : bounded (s.readF a) Config.mMulc = false := not_bounded_of_lt_abs hlimb
    refine faulted_of_next hi hb ?_
    rw [exec, execMulc, feMulc_out_of_bound imm hbound, State.commitF_error]
  · have hbound : bounded (s.readF a) Config.mSmul = false := not_bounded_of_lt_abs hlimb
    refine faulted_of_next hi hb ?_
    rw [exec, execSmul, feSmul_out_of_bound _ hbound, State.commitF_error]

/-- Settles O35: outside the range PACK's function fails. -/
theorem packRangeFaults : Obligations.PackRangeFaults := by
  intro d a s hi hb hval
  rw [← cast_p] at hval
  refine faulted_of_next hi hb ?_
  rw [exec, execPack, fePack_out_of_range hval, State.commitB_error]

/-! ### An illegal word -/

theorem completeStep_of_illegal {s : State} {e : Illegal} (hb : s.status.busy = true) (hd : decode s.cmd = .error e) :
    completeStep s = .next (s.takeFault .illegalCmd) := by
  rw [completeStep, if_pos hb, hd]

theorem inv_accept {s : State} (w : Word) (hi : s.Inv) (hf : s.status.fault = false) : (s.accept w).Inv :=
  State.writeCmd_of_not_fault w hf ▸ inv_writeCmd w hi

/-- Settles O7: the decoder refuses such a word, so its complete step is the fault entry. -/
theorem illegalWordFaults : Obligations.IllegalWordFaults := by
  intro s w hi hf hnone
  obtain ⟨e, he⟩ := (decode_error_iff_no_row w).mpr hnone
  obtain ⟨t, ht, hfault, hstatus⟩ :=
    faulted_of_next (inv_accept w hi hf) rfl (completeStep_of_illegal (s := s.accept w) rfl he)
  exact ⟨rfl, rfl, t, ht, hfault, hfault.finfo, hstatus, hfault.allF, hfault.allB⟩

end Sys2Proof.Machine
end

section
/-! SUPPORT. The faulted state lasts until reset (R219, R227), and a command in progress ends whatever the schedule
(R226, R258). -/

namespace Sys2Proof.Machine

/-! ### The faulted state -/

/-- The control registers that tell of a fault, `STATUS`, `CMD` and `FINFO`, are as they were. -/
structure SameFault (s t : State) : Prop where
  status : t.status = s.status
  cmd : t.cmd = s.cmd
  finfo : t.finfo = s.finfo

theorem State.Inv.idle_of_fault {s : State} (hi : s.Inv) (hf : s.status.fault = true) :
    s.status.busy = false ∧ s.status.done = false := by
  refine ⟨?_, ?_⟩
  · by_contra hb
    obtain ⟨-, hnofault⟩ := hi.clear_of_busy (by simpa using hb)
    simp [hf] at hnofault
  · obtain ⟨-, hboth, -, -⟩ := hi
    simpa [hf] using hboth

theorem Status.written_of_not_done {st : Status} (v : Word) (h : st.done = false) : st.written v = st := by
  rw [Status.written, h, Bool.false_and, ← h]

/-- In the faulted state no write but the soft reset touches the fault: a command is ignored, `DONE` is 0 already. -/
theorem sameFault_writeLoc {s : State} (hi : s.Inv) (hf : s.status.fault = true) {v : Word} {l : Loc}
    (hl : l = .ctrl → v.getLsbD 31 = false) : SameFault s (s.writeLoc v l) := by
  cases l with
  | cmd =>
    rw [State.writeLoc, State.writeCmd_of_fault v hf]
    exact ⟨rfl, rfl, rfl⟩
  | status =>
    obtain ⟨-, hdone⟩ := hi.idle_of_fault hf
    exact ⟨Status.written_of_not_done v hdone, rfl, rfl⟩
  | ctrl =>
    rw [State.writeLoc, s.writeCtrl_of_not_srst (hl rfl)]
    exact ⟨rfl, rfl, rfl⟩
  | finfo => exact ⟨rfl, rfl, rfl⟩
  | id => exact ⟨rfl, rfl, rfl⟩
  | bWord r w => exact ⟨rfl, rfl, rfl⟩
  | fHalf r i high => exact ⟨rfl, rfl, rfl⟩

theorem srst_clear_of_not_softReset {off : Offset} {v : Word} (hx : isSoftReset (.wr .w32 off v) = false)
    (hl : locate off = some .ctrl) : v.getLsbD 31 = false := by
  have hoff : off = 0x008#12 := (offset_of_locate hl).symm
  simpa [isSoftReset, hoff] using hx

theorem sameFault_perform {s : State} (hi : s.Inv) (hf : s.status.fault = true) {x : Txn}
    (hx : isSoftReset x = false) : SameFault s (s.perform x).1 := by
  obtain h | ⟨off, v, l, rfl, hl, h⟩ := perform_cases s x
  · rw [h]
    exact ⟨rfl, rfl, rfl⟩
  · rw [h]
    exact sameFault_writeLoc hi hf fun hctrl => srst_clear_of_not_softReset hx (hctrl ▸ hl)

theorem sameFault_hostStep {s : State} (hi : s.Inv) (hf : s.status.fault = true)
    (hx : ∀ x rest, s.host = x :: rest → isSoftReset x = false) : SameFault s s.hostStep := by
  obtain h | ⟨x, rest, hh, -, h⟩ := hostStep_cases s
  · rw [h]
    exact ⟨rfl, rfl, rfl⟩
  · have hperform := sameFault_perform (s := { s with host := rest }) (hi.congr rfl rfl rfl) hf (hx x rest hh)
    rw [h]
    exact ⟨hperform.status, hperform.cmd, hperform.finfo⟩

/-- The unit's turn does nothing to an idle unit, and a faulted one is idle. -/
theorem eq_taken_of_idle_completeStep {s t : State} (hb : s.status.busy = false) (h : completeStep s.taken = .next t) :
    t = s.taken := by
  rw [← State.settled_of_completeStep h]
  exact State.settled_of_idle hb

/-- Settles O57: the unit's turn changes nothing, the host's nothing that tells of the fault. -/
theorem faultIsSticky : Obligations.FaultIsSticky := by
  intro s t hi hf hstep hreset hhost
  obtain ⟨hb, hdone⟩ := hi.idle_of_fault hf
  have ⟨hsame, hunit⟩ : SameFault s t ∧ (s.turn = .unit → SameUnit s t) := by
    obtain ⟨-, hcomplete⟩ | ⟨hturn, rfl⟩ | ⟨hturn, -⟩ := step_cases hstep
    · obtain rfl := eq_taken_of_idle_completeStep hb hcomplete
      exact ⟨⟨rfl, rfl, rfl⟩, fun _ => sameUnit_taken s⟩
    · obtain ⟨hstatus, hcmd, hfinfo⟩ := sameFault_hostStep (s := s.taken) (hi.congr rfl rfl rfl) hf (hhost hturn)
      exact ⟨⟨hstatus, hcmd, hfinfo⟩, fun h => by rw [hturn] at h; cases h⟩
    · exact absurd hturn hreset
  rw [hsame.status]
  exact ⟨hf, rfl, hsame.finfo, hsame.cmd, hdone, hb, hunit⟩

/-! ### The command in progress ends -/

@[simp] theorem State.hostStep_schedule (s : State) : s.hostStep.schedule = s.schedule := by
  obtain h | ⟨x, rest, -, -, h⟩ := hostStep_cases s
  · rw [h]
  · rw [h, State.doTxn_schedule]

/-- A step takes one turn off the schedule. -/
theorem step_schedule {s t : State} (h : step s = .next t) : t.schedule = s.schedule.tail := by
  obtain ⟨-, hunit⟩ | ⟨-, rfl⟩ | ⟨-, rfl⟩ := step_cases h
  · rw [← State.settled_of_completeStep hunit]
    exact s.taken.settled_samePort.schedule
  · exact State.hostStep_schedule _
  · rfl

/-- When the schedule has run out, the unit ends the command before the host goes on (log entry 1). -/
theorem step_idle_of_schedule_nil {s t : State} (hs : s.schedule = []) (hb : s.status.busy = true)
    (h : step s = .next t) : t.status.busy = false := by
  have hturn : s.turn = .unit := by simp [State.turn, hs, hb]
  rw [step_of_unit_turn hturn] at h
  rw [← State.settled_of_completeStep h]
  exact s.taken.settled_busy

/-- Settles O59: the schedule shortens by one each step, and when it is empty the unit completes. -/
theorem commandFinishes : Obligations.CommandFinishes := by
  intro s hb
  induction hs : s.schedule generalizing s with
  | nil =>
    obtain ⟨t, ht⟩ := step_next s
    exact ⟨1, t, le_rfl, run_succ core 0 ht, step_idle_of_schedule_nil hs hb ht⟩
  | cons a rest ih =>
    obtain ⟨u, hu⟩ := step_next s
    cases hbusy : u.status.busy with
    | false => exact ⟨1, u, by simp, run_succ core 0 hu, hbusy⟩
    | true =>
      obtain ⟨k, t, hk, ht, hidle⟩ := ih u hbusy (by rw [step_schedule hu, hs, List.tail_cons])
      exact ⟨k + 1, t, by simpa using hk, (run_succ core k hu).trans ht, hidle⟩

end Sys2Proof.Machine
end

section
/-! SUPPORT. The reset input acts on any state (R250): the turn is taken and the unit is reset, whatever it was doing. -/

namespace Sys2Proof.Machine

theorem step_of_resetLine_turn {s : State} (h : s.turn = .resetLine) : step s = .next s.taken.resetUnit := by
  rw [step, h]

/-- Settles O54: the step is `resetUnit` after the turn is taken, and both leave the host's list and responses. -/
theorem hardReset : Obligations.HardReset := by
  intro s hturn
  refine ⟨s.taken.resetUnit, step_of_resetLine_turn hturn, sameUnit_resetUnit s.taken, ?_, ?_, ?_⟩
  · rw [State.resetUnit_host, State.taken_host]
  · rw [State.resetUnit_responses, State.taken_responses]
  · rw [State.resetUnit_schedule, State.taken_schedule]

end Sys2Proof.Machine
end
